-- ==== Sys2Proof/Word.lean ====
section
/-! DEFINITION. The word and byte types of the CORE (spec/00_scope.md R7, spec/10_state.md R57). -/

namespace Sys2Proof

/-- WORD_BITS = 16: the width of every memory word, register, stack entry and the program counter (R7). -/
abbrev Word := BitVec 16

/-- A byte of the two I/O streams, the only bytes the CORE handles (R57, R58, R71). -/
abbrev Byte := BitVec 8

end Sys2Proof
end

