-- ==== Sys2Proof/Config.lean ====
section
/-! DEFINITION. The parameters of the CORE (spec/00_scope.md R7): the three configuration
parameters with the spec's values. The fixed ones (8 registers, references from 32768, modulus 32768, P at
most 32768) are written as the spec's numerals where they are used; P is per load and stands in State. -/

namespace Sys2Proof

/-- READ_CODE_WINDOW (spec/20_memory.md R74): what a read at an address 32768 + r does. -/
inductive ReadCodeWindow
  /-- The register-reference addresses are no read addresses of their own. -/
  | fault
  /-- A read at 32768 + r reads register r. -/
  | register
  deriving DecidableEq, Repr

/-- MULT_SEMANTICS (spec/44_arith_logic.md R171): what MULT computes. -/
inductive MultSemantics
  /-- The product modulo 32768. -/
  | multiply
  /-- The sum modulo 32768, as the reference program computes. -/
  | add
  deriving DecidableEq, Repr

/-- The configuration parameters of R7: fixed for the machine, written by no instruction. -/
structure Config where
  /-- READ_CODE_WINDOW (R74, decision D3). -/
  readCodeWindow : ReadCodeWindow
  /-- MULT_SEMANTICS (R171, decision D5). -/
  multSemantics : MultSemantics
  /-- STACK_CAPACITY (spec/10_state.md R47, decision D10); `none` is unbounded. -/
  stackCapacity : Option Nat
  deriving DecidableEq, Repr

/-- The spec's own values of the three parameters (R7, R47, R74, R171). -/
def Config.spec : Config :=
  { readCodeWindow := .fault, multSemantics := .multiply, stackCapacity := none }

end Sys2Proof
end

