-- ==== Sys2Proof/Syntax.lean ====
section
/-! DEFINITION. The instructions of the CORE as syntax: the three classes of an operand word
(spec/30_encoding.md R102) and the 22 instructions of the opcode map (R105). -/

namespace Sys2Proof

/-- An operand word by its class (R102). Whether it is a source or a destination is fixed by its place in
the instruction (R103), so one type serves both. -/
inductive Operand
  /-- 0 to 32767: bit 15 is 0, the value is bits 14:0. -/
  | literal (v : BitVec 15)
  /-- 32768 to 32775: names register r. -/
  | reg (r : Fin 8)
  /-- 32776 to 65535: names neither a literal nor a register (R104). -/
  | invalid (w : Word)
  deriving DecidableEq, Repr

/-- The 22 instructions, one constructor per row of R105, operands in the order a, b, c. -/
inductive Instr
  /-- opcode 0, stop execution (R125). -/
  | halt
  /-- opcode 1, SET a b (R140). -/
  | set (a b : Operand)
  /-- opcode 2, PUSH a (R141). -/
  | push (a : Operand)
  /-- opcode 3, POP a (R142). -/
  | pop (a : Operand)
  /-- opcode 4, EQ a b c (R150). -/
  | eq (a b c : Operand)
  /-- opcode 5, GT a b c (R151). -/
  | gt (a b c : Operand)
  /-- opcode 6, JMP a (R160). -/
  | jmp (a : Operand)
  /-- opcode 7, JT a b (R161). -/
  | jt (a b : Operand)
  /-- opcode 8, JF a b (R162). -/
  | jf (a b : Operand)
  /-- opcode 9, ADD a b c (R170). -/
  | add (a b c : Operand)
  /-- opcode 10, MULT a b c (R171). -/
  | mult (a b c : Operand)
  /-- opcode 11, MOD a b c (R172). -/
  | mod (a b c : Operand)
  /-- opcode 12, AND a b c (R173). -/
  | and (a b c : Operand)
  /-- opcode 13, OR a b c (R174). -/
  | or (a b c : Operand)
  /-- opcode 14, NOT a b (R175). -/
  | not (a b : Operand)
  /-- opcode 15, RMEM a b (R190). -/
  | rmem (a b : Operand)
  /-- opcode 16, WMEM a b (R191). -/
  | wmem (a b : Operand)
  /-- opcode 17, CALL a (R200). -/
  | call (a : Operand)
  /-- opcode 18, RET (R201). -/
  | ret
  /-- opcode 19, OUT a (R210). -/
  | out (a : Operand)
  /-- opcode 20, IN a (R211). -/
  | inp (a : Operand)
  /-- opcode 21, NOOP (R126). -/
  | noop
  deriving DecidableEq, Repr

/-- The operands of an instruction, in the order a, b, c (R105). -/
def Instr.operands : Instr → List Operand
  | .halt | .ret | .noop => []
  | .push a | .pop a | .jmp a | .call a | .out a | .inp a => [a]
  | .set a b | .jt a b | .jf a b | .not a b | .rmem a b | .wmem a b => [a, b]
  | .eq a b c | .gt a b c | .add a b c | .mult a b c | .mod a b c | .and a b c | .or a b c => [a, b, c]

end Sys2Proof
end

