-- ==== Sys2Proof/WellFormed.lean ====
section
/-! DEFINITION. Well-formed instructions: an operand tagged invalid holds a word of the invalid class
(spec/30_encoding.md R102), so that every operand word has one reading. -/

namespace Sys2Proof

/-- The literal and register classes hold only words of their range by their types; the invalid class is
32776 to 65535 (R102). -/
def Operand.wf : Operand → Bool
  | .literal _ => true
  | .reg _ => true
  | .invalid w => decide (32776 ≤ w.toNat)

/-- Every operand of the instruction is of the class its constructor names. -/
def Instr.wf (i : Instr) : Bool := i.operands.all Operand.wf

end Sys2Proof
end

