-- ==== Sys2Proof/Decode.lean ====
section
/-! DEFINITION. Decoding and encoding (spec/30_encoding.md R100 to R109). The decoder reads the opcode word
AFTER the resolution of R107, which the fetch does (Machine/Fetch.lean); operand words come raw. -/

namespace Sys2Proof

/-- The number r of the register a word names, for a word 32768 + r (R102); none for every other word. -/
def regRef? (n : Nat) : Option (Fin 8) :=
  if h : 32768 ≤ n ∧ n < 32776 then some ⟨n - 32768, by omega⟩ else none

/-- The class of an operand word (R102). -/
def Operand.ofWord (w : Word) : Operand :=
  if w.toNat < 32768 then .literal (w.setWidth 15)
  else match regRef? w.toNat with
    | some r => .reg r
    | none => .invalid w

/-- The word of an operand (R102): the literal itself, 32768 + r, or the invalid word. -/
def Operand.word : Operand → Word
  | .literal v => v.setWidth 16
  | .reg r => BitVec.ofNat 16 (32768 + r.val)
  | .invalid w => w

/-- The 22 opcodes, named by the mnemonics of R105 (`inp` is IN). -/
inductive Opcode
  | halt | set | push | pop | eq | gt | jmp | jt | jf | add | mult | mod | and | or | not
  | rmem | wmem | call | ret | out | inp | noop
  deriving DecidableEq, Repr

/-- The instruction formats of R106, named after their operand kinds. -/
inductive Format
  | f0 | fs | fd | fss | fds | fdss
  deriving DecidableEq, Repr

/-- The number of operand words of a format (R106). -/
def Format.operandCount : Format → Nat
  | .f0 => 0
  | .fs | .fd => 1
  | .fss | .fds => 2
  | .fdss => 3

/-- The opcode column of R105; 22 and above name no instruction (R107, R108). -/
def Opcode.ofNat? : Nat → Option Opcode
  | 0 => some .halt
  | 1 => some .set
  | 2 => some .push
  | 3 => some .pop
  | 4 => some .eq
  | 5 => some .gt
  | 6 => some .jmp
  | 7 => some .jt
  | 8 => some .jf
  | 9 => some .add
  | 10 => some .mult
  | 11 => some .mod
  | 12 => some .and
  | 13 => some .or
  | 14 => some .not
  | 15 => some .rmem
  | 16 => some .wmem
  | 17 => some .call
  | 18 => some .ret
  | 19 => some .out
  | 20 => some .inp
  | 21 => some .noop
  | _ => none

/-- The format column of R105. -/
def Opcode.format : Opcode → Format
  | .halt => .f0
  | .set => .fds
  | .push => .fs
  | .pop => .fd
  | .eq => .fdss
  | .gt => .fdss
  | .jmp => .fs
  | .jt => .fss
  | .jf => .fss
  | .add => .fdss
  | .mult => .fdss
  | .mod => .fdss
  | .and => .fdss
  | .or => .fdss
  | .not => .fds
  | .rmem => .fds
  | .wmem => .fss
  | .call => .fs
  | .ret => .f0
  | .out => .fs
  | .inp => .fd
  | .noop => .f0

/-- The instruction of an opcode and its operands in the order a, b, c; operands beyond the format's count
are not looked at. -/
def Opcode.assemble (op : Opcode) (a b c : Operand) : Instr :=
  match op with
  | .halt => .halt
  | .set => .set a b
  | .push => .push a
  | .pop => .pop a
  | .eq => .eq a b c
  | .gt => .gt a b c
  | .jmp => .jmp a
  | .jt => .jt a b
  | .jf => .jf a b
  | .add => .add a b c
  | .mult => .mult a b c
  | .mod => .mod a b c
  | .and => .and a b c
  | .or => .or a b c
  | .not => .not a b
  | .rmem => .rmem a b
  | .wmem => .wmem a b
  | .call => .call a
  | .ret => .ret
  | .out => .out a
  | .inp => .inp a
  | .noop => .noop

/-- Why words decode to no instruction. -/
inductive DecodeError
  /-- There is no opcode word. -/
  | noOpcodeWord
  /-- The opcode word is 22 or more (R107). -/
  | opcodeOutOfRange (w : Word)
  /-- Fewer operand words follow than the opcode's format has. -/
  | operandsMissing (w : Word)
  deriving DecidableEq, Repr

/-- The number of operand words after an opcode word, known from the opcode alone (R109); none are read
after a word that names no instruction. -/
def operandCount (op : Word) : Nat :=
  match Opcode.ofNat? op.toNat with
  | some o => o.format.operandCount
  | none => 0

/-- Operand k of a list of operand words. -/
def operandAt (ws : List Word) (k : Nat) : Operand := Operand.ofWord (ws.getD k 0)

/-- Decode the instruction at the head of a list of words, and give the words after it. The first word is
the opcode as the fetch resolved it (R107), the others are raw operand words; every operand word is accepted
(R108), and the length depends on the opcode alone (R100, R109). -/
def decode : List Word → Except DecodeError (Instr × List Word)
  | [] => .error .noOpcodeWord
  | w :: ws =>
    match Opcode.ofNat? w.toNat with
    | none => .error (.opcodeOutOfRange w)
    | some o =>
      if ws.length < o.format.operandCount then .error (.operandsMissing w)
      else .ok (o.assemble (operandAt ws 0) (operandAt ws 1) (operandAt ws 2), ws.drop o.format.operandCount)

/-- The words of an instruction, written from the encoding lines of files 40 to 47: the opcode word, then
the operand words at consecutive addresses (R100). -/
def encode : Instr → List Word
  | .halt => [0]
  | .set a b => [1, a.word, b.word]
  | .push a => [2, a.word]
  | .pop a => [3, a.word]
  | .eq a b c => [4, a.word, b.word, c.word]
  | .gt a b c => [5, a.word, b.word, c.word]
  | .jmp a => [6, a.word]
  | .jt a b => [7, a.word, b.word]
  | .jf a b => [8, a.word, b.word]
  | .add a b c => [9, a.word, b.word, c.word]
  | .mult a b c => [10, a.word, b.word, c.word]
  | .mod a b c => [11, a.word, b.word, c.word]
  | .and a b c => [12, a.word, b.word, c.word]
  | .or a b c => [13, a.word, b.word, c.word]
  | .not a b => [14, a.word, b.word]
  | .rmem a b => [15, a.word, b.word]
  | .wmem a b => [16, a.word, b.word]
  | .call a => [17, a.word]
  | .ret => [18]
  | .out a => [19, a.word]
  | .inp a => [20, a.word]
  | .noop => [21]

/-- The words of an instruction whose bits are numbered from the first word's least significant bit, bits
from nbits up being 0: word k is bits 16k+15 down to 16k, and the longest instruction has four words (R100). -/
def tableWords (nbits w : Nat) : List Word :=
  (List.range 4).map fun k => BitVec.ofNat 16 ((w % 2 ^ nbits) / 2 ^ (16 * k))

/-- The instruction the decoder reads from an opcode table row's bits. -/
def decodeTableWord (nbits w : Nat) : Option Instr :=
  match decode (tableWords nbits w) with
  | .ok (i, _) => some i
  | .error _ => none

end Sys2Proof
end

