-- ==== Sys2Proof/Machine/State.lean ====
section
/-! DEFINITION. The state of the CORE as plain data (spec/10_state.md), and the state right after reset
(spec/70_reset_and_hazards.md R251). -/

namespace Sys2Proof.Machine

/-- The fault kinds of spec/60_exceptions.md R220. Raising one is a NEXT state: the run state becomes
FAULTED(kind) and nothing else changes (R221, R222; log 4), so no step answers `Outcome.fault`. -/
inductive Fault
  /-- Code 1. Raised by a destination or computed address without a slot (SET, POP, EQ, GT, ADD, MULT, MOD,
  AND, OR, NOT, RMEM, IN, WMEM) and by RMEM's computed read address. As the spec says; safe. -/
  | outOfBoundsAddress
  /-- Code 2. Raised by the decode of a step whose resolved opcode word is 22 or more. As the spec says; safe. -/
  | outOfRangeOpcode
  /-- Code 3. Raised by POP on an empty stack. As the spec says; safe. -/
  | emptyStackPop
  /-- Code 4. Raised by MOD with a divisor value of 0 (decision D6). Errs toward unprovable; safe. -/
  | modByZero
  /-- Code 5. Raised by PUSH and CALL on a full stack of finite capacity (decision D10). Errs toward
  unprovable; safe. -/
  | stackOverflow
  /-- Code 6. Raised by the release of reset after a load with P > 32768 (decision D1). Errs toward
  unprovable; safe. -/
  | imageTooLarge
  deriving DecidableEq, Repr

/-- The reasons a step can be refused. -/
inductive Refusal
  /-- An instruction the model has no meaning for, raised by its arm of `exec`; no arm does. Safe. -/
  | notModelled (mnemonic : String)
  deriving DecidableEq, Repr

/-- The halt reasons of R53. -/
inductive HaltReason
  /-- Code 1: opcode 0 was executed. -/
  | haltInstruction
  /-- Code 2: pc >= P at the start of a step. -/
  | endOfProgram
  /-- Code 3: RET on an empty stack. -/
  | returnEmpty
  deriving DecidableEq, Repr

/-- The run state of R52; halted and faulted are terminal until a reset. -/
inductive RunState
  | running
  | halted (reason : HaltReason)
  | faulted (kind : Fault)
  deriving DecidableEq, Repr

/-- The reset input and load interface of R59 and R60. -/
inductive ResetLine
  /-- Reset is not asserted: the cycle runs. -/
  | released
  /-- Reset is asserted; `image` is the word sequence the host has loaded since, if any. -/
  | asserted (image : Option (List Word))
  deriving DecidableEq, Repr

/-- Program memory (R37): P words, as a list of (address, word) pairs with addresses strictly rising and
no entry 0; an address below P that is not listed holds 0 (log 1, log 2). -/
structure Memory where
  /-- P, the program size, fixed by the load. -/
  size : Nat
  /-- The nonzero words with their addresses. -/
  cells : List (Nat × Word)
  deriving DecidableEq, Repr

/-- Everything the spec gives the machine (spec/10_state.md section 1), with the configuration of R7,
which no instruction writes. -/
structure State where
  /-- The configuration parameters (R7). -/
  cfg : Config
  /-- The register file x[0..7] (R30). -/
  regs : Vector Word 8
  /-- Program memory M[0..P-1] and P (R37). -/
  mem : Memory
  /-- The program counter (R39). -/
  pc : Word
  /-- The stack S, the top first (R44 to R48). -/
  stack : List Word
  /-- The run state (R52). -/
  run : RunState
  /-- Whether an IN is waiting for a byte (R56). -/
  waiting : Bool
  /-- The output stream in program order (R57). -/
  output : List Byte
  /-- The bytes offered by the host and not yet taken, the oldest first (R58). -/
  input : List Byte
  /-- The reset input and load interface (R59, R60). -/
  resetLine : ResetLine
  deriving DecidableEq, Repr

/-- The state right after the release of reset (R251) with the spec's configuration (R7), a load of zero
words (P = 0; log 3) and no byte offered (log 10). -/
def State.reset : State :=
  { cfg := Config.spec
    regs := Vector.replicate 8 0
    mem := { size := 0, cells := [] }
    pc := 0
    stack := []
    run := .running
    waiting := false
    output := []
    input := []
    resetLine := .released }

end Sys2Proof.Machine
end

