-- ==== Sys2Proof/Machine/Memory.lean ====
section
/-! DEFINITION. Program memory (spec/10_state.md R37, R38): reading, writing and loading words, and the
canonical form of the list that holds them. -/

namespace Sys2Proof.Machine

/-- What an address below P that is not listed holds. -/
def unlistedWord : Word := 0

/-- The word a list of cells gives an address. -/
def readCells : List (Nat × Word) → Nat → Word
  | [], _ => unlistedWord
  | (i, v) :: rest, k => if i = k then v else readCells rest k

/-- The cells with address k holding v: the entry is put in its place, or taken out when v is what an
unlisted address holds. -/
def writeCells : List (Nat × Word) → Nat → Word → List (Nat × Word)
  | [], k, v => if v = unlistedWord then [] else [(k, v)]
  | (i, u) :: rest, k, v =>
    if k < i then (if v = unlistedWord then (i, u) :: rest else (k, v) :: (i, u) :: rest)
    else if k = i then (if v = unlistedWord then rest else (k, v) :: rest)
    else (i, u) :: writeCells rest k v

/-- The cells of the words of an image, the first at address k. -/
def cellsFrom : Nat → List Word → List (Nat × Word)
  | _, [] => []
  | k, w :: ws => if w = unlistedWord then cellsFrom (k + 1) ws else (k, w) :: cellsFrom (k + 1) ws

/-- Every address is in lo..hi-1, addresses rise strictly, and no entry is what an unlisted address holds. -/
def cellsWf : Nat → Nat → List (Nat × Word) → Bool
  | _, _, [] => true
  | lo, hi, (i, v) :: rest => decide (lo ≤ i) && decide (i < hi) && decide (v ≠ unlistedWord) && cellsWf (i + 1) hi rest

/-- M[k] (R38). -/
def Memory.read (m : Memory) (k : Nat) : Word := readCells m.cells k

/-- M[k] <- v (R38); P does not change (R37). -/
def Memory.write (m : Memory) (k : Nat) (v : Word) : Memory := { m with cells := writeCells m.cells k v }

/-- The program memory a load gives: P is the number of words and M[i] the i-th of them (R37, R60). -/
def Memory.ofWords (ws : List Word) : Memory := { size := ws.length, cells := cellsFrom 0 ws }

/-- P <= 32768 (R37) and the canonical form. -/
def Memory.wf (m : Memory) : Bool := decide (m.size ≤ 32768) && cellsWf 0 m.size m.cells

end Sys2Proof.Machine
end

