-- ==== Sys2Proof/Machine/Ops.lean ====
section
/-! DEFINITION. The shared operations of the CORE: address decode and the three memory primitives
(spec/20_memory.md R74 to R78), the stack (spec/10_state.md R44 to R47), the byte streams, the
program-counter sequencer and the halts and faults (spec/40_cycle_and_control.md R124, R127,
spec/60_exceptions.md R221, R222). -/

namespace Sys2Proof.Machine

/-- What a step answers. -/
abbrev Answer : Type := Host.Outcome State Fault Refusal

/-- A slot of the Memory: a program memory word or a register (R70). -/
inductive Slot
  | program (k : Nat)
  | register (r : Fin 8)
  deriving DecidableEq, Repr

/-- The slot of address A among the P program words and, after them, the 8 register slots (R70): the bounds
check that R74 and R75 share. -/
def rawSlot (size A : Nat) : Option Slot :=
  if A < size then some (.program A)
  else if h : size ≤ A ∧ A < size + 8 then some (.register ⟨A - size, by omega⟩)
  else none

/-- The read decode `ReadSlot` of R74; none is the fault OUT_OF_BOUNDS_ADDRESS. -/
def State.readSlot (s : State) (A : Nat) : Option Slot :=
  match s.cfg.readCodeWindow with
  | .fault => rawSlot s.mem.size A
  | .register =>
    match regRef? A with
    | some r => some (.register r)
    | none => rawSlot s.mem.size A

/-- The write decode `WriteSlot` of R75; none is the fault OUT_OF_BOUNDS_ADDRESS. -/
def State.writeSlot (s : State) (A : Nat) : Option Slot :=
  match regRef? A with
  | some r => some (.register r)
  | none => rawSlot s.mem.size A

/-- x[r] (R30). -/
def State.reg (s : State) (r : Fin 8) : Word := s.regs[r]

/-- x[r] <- v, verbatim (R32). -/
def State.setReg (s : State) (r : Fin 8) (v : Word) : State := { s with regs := s.regs.set r v }

/-- M[k] <- v, verbatim (R38). -/
def State.setWord (s : State) (k : Nat) (v : Word) : State := { s with mem := s.mem.write k v }

/-- The word in a slot. -/
def State.getSlot (s : State) : Slot → Word
  | .program k => s.mem.read k
  | .register r => s.reg r

/-- The state with a slot's word replaced; no other slot changes (R73). -/
def State.setSlot (s : State) (slot : Slot) (v : Word) : State :=
  match slot with
  | .program k => s.setWord k v
  | .register r => s.setReg r v

/-- `Resolve` of R77: a register reference gives that register's value, one level; any other word itself. -/
def State.resolve (s : State) (w : Word) : Word :=
  match regRef? w.toNat with
  | some r => s.reg r
  | none => w

/-- `RawRead` of R76. -/
def State.rawRead (s : State) (A : Nat) : Except Fault Word :=
  match s.readSlot A with
  | some slot => .ok (s.getSlot slot)
  | none => .error .outOfBoundsAddress

/-- `MemRead` of R77. -/
def State.memRead (s : State) (A : Nat) : Except Fault Word := (s.rawRead A).map s.resolve

/-- `MemWrite` of R78: verbatim, without resolution; on a fault nothing is written. -/
def State.memWrite (s : State) (A : Nat) (v : Word) : Except Fault State :=
  match s.writeSlot A with
  | some slot => .ok (s.setSlot slot v)
  | none => .error .outOfBoundsAddress

/-- Whether a push finds the stack full: only when STACK_CAPACITY is finite (R47). -/
def State.stackFull (s : State) : Bool :=
  match s.cfg.stackCapacity with
  | none => false
  | some n => decide (n ≤ s.stack.length)

/-- `Push` of R44, with the fault of R47. -/
def State.push (s : State) (v : Word) : Except Fault State :=
  if s.stackFull then .error .stackOverflow else .ok { s with stack := v :: s.stack }

/-- `Pop` of R45: the top word, and the state without it. -/
def State.pop (s : State) : Except Fault (Word × State) :=
  match s.stack with
  | [] => .error .emptyStackPop
  | v :: rest => .ok (v, { s with stack := rest })

/-- `Emit` (R57, R62): the host always accepts the byte. -/
def State.emit (s : State) (b : Byte) : State := { s with output := s.output ++ [b] }

/-- The sequencer's fall-through: pc <- pc + L (R127). -/
def State.advance (s : State) (len : Nat) : State := { s with pc := s.pc + BitVec.ofNat 16 len }

/-- The sequencer's jump: pc <- a value, unchecked (R127). -/
def State.jump (s : State) (target : Word) : State := { s with pc := target }

/-- `Halt(reason)` of R124: only the run state changes. -/
def State.halt (s : State) (reason : HaltReason) : State := { s with run := .halted reason }

/-- TAKING A FAULT, `raise Fault(kind)` of R221: the run state becomes FAULTED(kind) and nothing else
changes (R222). There is no handler and no return from a fault (R223, R228). -/
def State.raise (s : State) (kind : Fault) : State := { s with run := .faulted kind }

/-- Complete a step that may fault: its effect, or the fault taken in the state at the start of the step, so
that every fault is precise (R222). -/
def State.commit (s : State) (r : Except Fault State) : Answer :=
  match r with
  | .ok t => .next t
  | .error kind => .next (s.raise kind)

/-- Write a result to a destination address and fall through: the shared end of every instruction with a
written result (files 41 to 47). -/
def State.store (s : State) (A : Nat) (v : Word) (len : Nat) : Except Fault State :=
  (s.memWrite A v).map fun t => t.advance len

end Sys2Proof.Machine
end

