-- ==== Sys2Proof/Machine/Operands.lean ====
section
/-! DEFINITION. The two operand kinds (spec/00_scope.md R8, spec/30_encoding.md R103). Both are taken in
the state at the start of the instruction, before it writes anything (spec/40_cycle_and_control.md R122). -/

namespace Sys2Proof.Machine

/-- `value(k)`: the operand cell's word resolved. A literal and an invalid word give themselves, a register
reference the register's value (R103, R104). -/
def State.value (s : State) (o : Operand) : Word := s.resolve o.word

/-- `dest(k)`: the operand cell's raw word, as a write address (R103). -/
def dest (o : Operand) : Nat := o.word.toNat

end Sys2Proof.Machine
end

