-- ==== Sys2Proof/Machine/ArithLogic.lean ====
section
/-! DEFINITION. ADD, MULT, MOD, AND, OR and NOT (spec/44_arith_logic.md R170 to R176): unsigned, computed
exactly on the numbers and then reduced. -/

namespace Sys2Proof.Machine

/-- ADD's result: (b + c) mod 32768 (R170). -/
def addResult (b c : Word) : Word := BitVec.ofNat 16 ((b.toNat + c.toNat) % 32768)

/-- MULT's result: the exact product mod 32768, or the sum mod 32768 under MULT_SEMANTICS = add (R171). -/
def multResult (sem : MultSemantics) (b c : Word) : Word :=
  match sem with
  | .multiply => BitVec.ofNat 16 ((b.toNat * c.toNat) % 32768)
  | .add => BitVec.ofNat 16 ((b.toNat + c.toNat) % 32768)

/-- MOD's result for a nonzero c: the unsigned remainder, not reduced (R172). -/
def modResult (b c : Word) : Word := BitVec.ofNat 16 (b.toNat % c.toNat)

/-- AND's result, 16 bits, not masked (R173). -/
def andResult (b c : Word) : Word := b &&& c

/-- OR's result, 16 bits, not masked (R174). -/
def orResult (b c : Word) : Word := b ||| c

/-- NOT's result: bits 14:0 of the complement (R175). -/
def notResult (b : Word) : Word := ~~~b &&& 0x7FFF

/-- ADD a b c (R170). -/
def execAdd (a b c : Operand) (s : State) : Answer :=
  s.commit (s.store (dest a) (addResult (s.value b) (s.value c)) 4)

/-- MULT a b c (R171). -/
def execMult (a b c : Operand) (s : State) : Answer :=
  s.commit (s.store (dest a) (multResult s.cfg.multSemantics (s.value b) (s.value c)) 4)

/-- MOD a b c (R172): the zero divisor is checked before the destination. -/
def execMod (a b c : Operand) (s : State) : Answer :=
  s.commit (if s.value c = 0 then .error .modByZero
    else s.store (dest a) (modResult (s.value b) (s.value c)) 4)

/-- AND a b c (R173). -/
def execAnd (a b c : Operand) (s : State) : Answer :=
  s.commit (s.store (dest a) (andResult (s.value b) (s.value c)) 4)

/-- OR a b c (R174). -/
def execOr (a b c : Operand) (s : State) : Answer :=
  s.commit (s.store (dest a) (orResult (s.value b) (s.value c)) 4)

/-- NOT a b (R175). -/
def execNot (a b : Operand) (s : State) : Answer :=
  s.commit (s.store (dest a) (notResult (s.value b)) 3)

end Sys2Proof.Machine
end

