-- ==== Sys2Proof/Machine/ByteIO.lean ====
section
/-! DEFINITION. OUT and IN (spec/47_io.md R210 to R213). -/

namespace Sys2Proof.Machine

/-- OUT a (R210): emit bits 7:0 of the value. -/
def execOut (a : Operand) (s : State) : Answer :=
  .next ((s.emit ((s.value a).setWidth 8)).advance 2)

/-- The input wait (R213): nothing but the hidden waiting bit changes (R56; log 6). -/
def State.awaitByte (s : State) : State := { s with waiting := true }

/-- Take the oldest offered byte, whose successors are `rest` (R61, R212); the wait, if any, is over. -/
def State.takeByte (s : State) (rest : List Byte) : State := { s with input := rest, waiting := false }

/-- IN a (R211): the destination is checked before the wait; then the step waits while no byte is offered,
or takes one byte and writes it zero-extended. -/
def execInp (a : Operand) (s : State) : Answer :=
  match s.writeSlot (dest a) with
  | none => .next (s.raise .outOfBoundsAddress)
  | some slot =>
    match s.input with
    | [] => .next s.awaitByte
    | b :: rest => .next (((s.takeByte rest).setSlot slot (b.setWidth 16)).advance 2)

end Sys2Proof.Machine
end

