-- ==== Sys2Proof/Machine/CallReturn.lean ====
section
/-! DEFINITION. CALL and RET (spec/46_call_return.md R200, R201). -/

namespace Sys2Proof.Machine

/-- CALL a (R200): push pc + 2 and jump to the value of a. -/
def execCall (a : Operand) (s : State) : Answer :=
  s.commit ((s.push (s.pc + 2)).map fun t => t.jump (s.value a))

/-- RET (R201): a clean halt on an empty stack, else jump to the popped word. -/
def execRet (s : State) : Answer :=
  if s.stack.isEmpty then .next (s.halt .returnEmpty)
  else s.commit (s.pop.map fun p => p.2.jump p.1)

end Sys2Proof.Machine
end

