-- ==== Sys2Proof/Machine/Flags.lean ====
section
/-! DEFINITION. The CORE has no flags (spec/10_state.md R50): a comparison gives the word 1 or 0, and a
conditional jump tests a word. -/

namespace Sys2Proof.Machine

/-- The word of a comparison's outcome: 1 or 0 (R50). -/
def truthWord (b : Bool) : Word := if b then 1 else 0

/-- EQ's result (spec/42_compare.md R150). -/
def eqResult (b c : Word) : Word := truthWord (b == c)

/-- GT's result, unsigned and strict (R151). -/
def gtResult (b c : Word) : Word := truthWord (decide (c.toNat < b.toNat))

/-- The condition JT jumps on and JF does not: the value is nonzero (spec/43_jump.md R161, R162). -/
def isNonzero (w : Word) : Bool := w != 0

end Sys2Proof.Machine
end

