-- ==== Sys2Proof/Machine/Compare.lean ====
section
/-! DEFINITION. EQ and GT (spec/42_compare.md R150, R151). -/

namespace Sys2Proof.Machine

/-- EQ a b c (R150). -/
def execEq (a b c : Operand) (s : State) : Answer :=
  s.commit (s.store (dest a) (eqResult (s.value b) (s.value c)) 4)

/-- GT a b c (R151). -/
def execGt (a b c : Operand) (s : State) : Answer :=
  s.commit (s.store (dest a) (gtResult (s.value b) (s.value c)) 4)

end Sys2Proof.Machine
end

