-- ==== Sys2Proof/Machine/Control.lean ====
section
/-! DEFINITION. HALT and NOOP (spec/40_cycle_and_control.md R125, R126) and the jumps
(spec/43_jump.md R160 to R162). -/

namespace Sys2Proof.Machine

/-- HALT (R125): pc is not advanced. -/
def execHalt (s : State) : Answer := .next (s.halt .haltInstruction)

/-- NOOP (R126). -/
def execNoop (s : State) : Answer := .next (s.advance 1)

/-- JMP a (R160). -/
def execJmp (a : Operand) (s : State) : Answer := .next (s.jump (s.value a))

/-- JT a b (R161). -/
def execJt (a b : Operand) (s : State) : Answer :=
  .next (if isNonzero (s.value a) then s.jump (s.value b) else s.advance 3)

/-- JF a b (R162). -/
def execJf (a b : Operand) (s : State) : Answer :=
  .next (if isNonzero (s.value a) then s.advance 3 else s.jump (s.value b))

end Sys2Proof.Machine
end

