-- ==== Sys2Proof/Machine/MemoryAccess.lean ====
section
/-! DEFINITION. RMEM and WMEM (spec/45_memory_access.md R190, R191). -/

namespace Sys2Proof.Machine

/-- RMEM a b (R190): the word read is resolved a second time, and the read is checked before the
destination. -/
def execRmem (a b : Operand) (s : State) : Answer :=
  s.commit (match s.memRead (s.value b).toNat with
    | .error kind => .error kind
    | .ok v => s.store (dest a) v 3)

/-- WMEM a b (R191): the address is the value of a, not its raw word. -/
def execWmem (a b : Operand) (s : State) : Answer :=
  s.commit (s.store (s.value a).toNat (s.value b) 3)

end Sys2Proof.Machine
end

