-- ==== Sys2Proof/Machine/RegisterStack.lean ====
section
/-! DEFINITION. SET, PUSH and POP (spec/41_register_stack.md R140 to R142). -/

namespace Sys2Proof.Machine

/-- SET a b (R140). -/
def execSet (a b : Operand) (s : State) : Answer := s.commit (s.store (dest a) (s.value b) 3)

/-- PUSH a (R141). -/
def execPush (a : Operand) (s : State) : Answer :=
  s.commit ((s.push (s.value a)).map fun t => t.advance 2)

/-- POP a (R142): the empty stack is checked before the destination, and on either fault the stack is as
it was. -/
def execPop (a : Operand) (s : State) : Answer :=
  s.commit (match s.pop with
    | .error kind => .error kind
    | .ok (v, t) => t.store (dest a) v 2)

end Sys2Proof.Machine
end

