-- ==== Sys2Proof/Machine/Fetch.lean ====
section
/-! DEFINITION. The instruction fetch of spec/40_cycle_and_control.md R122: the opcode through `MemRead`, the
operand words raw (a source operand is resolved where the meaning takes its value, before it writes
anything; log 20), and the placing of a word where the next step fetches. -/

namespace Sys2Proof.Machine

/-- `RawRead` of n consecutive addresses from A, in address order. -/
def State.rawReads (s : State) (A : Nat) : Nat → Except Fault (List Word)
  | 0 => .ok []
  | n + 1 =>
    match s.rawRead A with
    | .error kind => .error kind
    | .ok w =>
      match s.rawReads (A + 1) n with
      | .error kind => .error kind
      | .ok ws => .ok (w :: ws)

/-- Fetch and decode the instruction at pc (R122): an opcode word that is 22 or more after resolution is
OUT_OF_RANGE_OPCODE (R107). -/
def State.fetch (s : State) : Except Fault Instr :=
  match s.memRead s.pc.toNat with
  | .error kind => .error kind
  | .ok op =>
    match s.rawReads (s.pc.toNat + 1) (operandCount op) with
    | .error kind => .error kind
    | .ok ws =>
      match decode (op :: ws) with
      | .ok (i, _) => .ok i
      | .error _ => .error .outOfRangeOpcode

/-- Consecutive words written from address k up. -/
def Memory.writeWords (m : Memory) (k : Nat) : List Word → Memory
  | [] => m
  | w :: ws => (m.write k w).writeWords (k + 1) ws

/-- The address a fetch can be made to read four program words from: pc, or 0 where pc is so high that no
program of at most 32768 words reaches four words past it (log 21). -/
def State.placeAddress (s : State) : Nat :=
  if s.pc.toNat + 4 ≤ 32768 then s.pc.toNat else 0

/-- The state with four words in program memory where the next step fetches: P is at least four past the
place, and the CORE is running, out of reset and not in the middle of a wait (log 3, log 21). -/
def State.placeWords (s : State) (ws : List Word) : State :=
  { s with
    mem := { s.mem with size := max s.mem.size (s.placeAddress + 4) }.writeWords s.placeAddress ws
    pc := BitVec.ofNat 16 s.placeAddress
    run := .running
    waiting := false
    resetLine := .released }

end Sys2Proof.Machine
end

