-- ==== Sys2Proof/Machine/Step.lean ====
section
/-! DEFINITION. One step of the CORE (spec/40_cycle_and_control.md R120 to R122). -/

namespace Sys2Proof.Machine

/-- One step. In reset no instruction executes (spec/10_state.md R59); in HALTED and FAULTED no step is taken
and all state is kept (R52, spec/60_exceptions.md R234; log 5); at or past the end of the program the step is
a clean halt (R121); a fetch that faults takes its fault (R122); otherwise the instruction executes. -/
def step (s : State) : Host.Outcome State Fault Refusal :=
  match s.resetLine, s.run with
  | .asserted _, _ => .next s
  | .released, .halted _ => .next s
  | .released, .faulted _ => .next s
  | .released, .running =>
    if s.mem.size ≤ s.pc.toNat then .next (s.halt .endOfProgram)
    else
      match s.fetch with
      | .error kind => .next (s.raise kind)
      | .ok i => exec i s

/-- The state with an instruction's bits stored where `step` fetches (bit 0 is the first word's least
significant bit, the bits from nbits up are 0); it stands for the load of a program (log 3, log 21). -/
def State.withFetchWord (s : State) (nbits w : Nat) : State := s.placeWords (tableWords nbits w)

end Sys2Proof.Machine
end

