-- ==== Sys2Proof/Machine/Ports.lean ====
section
/-! DEFINITION. The host's side of the CORE (spec/10_state.md R59 to R65, spec/70_reset_and_hazards.md R250):
reset and load, the input port, the status word and the debug register port. The output port needs no move:
the host always accepts (R62), and the bytes stand in `output`. -/

namespace Sys2Proof.Machine

/-- The state at the release of reset after a load of the words ws (R250, R251): every piece of state at its
reset value; the bytes the host has offered are not the CORE's to reset. A load of more than 32768 words is
refused (R60, decision D1); no program word is then held (log 11). -/
def State.construct (cfg : Config) (ws : List Word) (offered : List Byte) : State :=
  if ws.length ≤ 32768 then
    { State.reset with cfg := cfg, mem := Memory.ofWords ws, input := offered }
  else
    { State.reset with cfg := cfg, input := offered, run := .faulted .imageTooLarge }

/-- The host's moves that change the machine (R65). Reading the two read ports changes nothing, and accepting
an output byte is part of OUT (R62). -/
inductive HostMove
  /-- Assert reset (R59). -/
  | assertReset
  /-- Deliver P and the words, while in reset (R60). -/
  | load (ws : List Word)
  /-- Release reset (R59). -/
  | releaseReset
  /-- Offer the next byte of the input stream (R61). -/
  | offerByte (b : Byte)
  deriving DecidableEq, Repr

/-- One move of the host, between two steps (R85; log 22). Reset may be asserted in any run state (R250),
which keeps all other state until the release (log 12); asserting it while it is already asserted drops an
image loaded since the first assertion (log 23). A load is taken in reset only, and replaces an earlier one
(R60; log 15); a release before any load does nothing, since the host must load first (R252; log 12); an offered
byte joins the bytes not yet taken and ends an input wait (R213; log 7, log 16). -/
def HostMove.apply (m : HostMove) (s : State) : State :=
  match m with
  | .assertReset => { s with resetLine := .asserted none }
  | .load ws =>
    match s.resetLine with
    | .released => s
    | .asserted _ => { s with resetLine := .asserted (some ws) }
  | .releaseReset =>
    match s.resetLine with
    | .released => s
    | .asserted none => s
    | .asserted (some ws) => State.construct s.cfg ws s.input
  | .offerByte b => { s with input := s.input ++ [b], waiting := false }

/-- The codes of the halt reasons (R53). -/
def HaltReason.code : HaltReason → Nat
  | .haltInstruction => 1
  | .endOfProgram => 2
  | .returnEmpty => 3

/-- The codes of the fault kinds (spec/60_exceptions.md R220). -/
def Fault.code : Fault → Nat
  | .outOfBoundsAddress => 1
  | .outOfRangeOpcode => 2
  | .emptyStackPop => 3
  | .modByZero => 4
  | .stackOverflow => 5
  | .imageTooLarge => 6

/-- RUN_STATE, bits 1:0 of the status word (R63). -/
def State.runStateField (s : State) : Nat :=
  match s.run with
  | .running => if s.waiting then 3 else 0
  | .halted _ => 1
  | .faulted _ => 2

/-- CODE, bits 7:4 of the status word (R63). -/
def State.codeField (s : State) : Nat :=
  match s.run with
  | .running => 0
  | .halted reason => reason.code
  | .faulted kind => kind.code

/-- The status word, read by the host only (R63); bits 3:2 and 15:8 are 0. While reset is asserted it reads
as the run state last left it (log 13). -/
def State.statusWord (s : State) : Word := BitVec.ofNat 16 (s.codeField * 16 + s.runStateField)

/-- The debug register port (R64): the eight registers, changing nothing. -/
def State.registerSnapshot (s : State) : Vector Word 8 := s.regs

end Sys2Proof.Machine
end

