-- ==== Sys2Proof/Safety.lean ====
section
/-! DEFINITION. What claims are stated in terms of: a state about to execute an instruction, the invariant
of the reachable states, lists of instructions run in a row, and safe runs. -/

namespace Sys2Proof.Machine

/-- The next step fetches an instruction: reset is released, the run state is RUNNING and pc is below P
(spec/40_cycle_and_control.md R120, R121, R122). -/
abbrev State.Fetching (s : State) : Prop :=
  s.resetLine = .released ∧ s.run = .running ∧ s.pc.toNat < s.mem.size

/-- The stack holds at most STACK_CAPACITY entries (spec/10_state.md R47). -/
def State.stackFits (s : State) : Bool :=
  match s.cfg.stackCapacity with
  | none => true
  | some n => decide (s.stack.length ≤ n)

/-- The CORE waits only in an IN that has passed its destination check with no byte offered
(spec/10_state.md R56, spec/47_io.md R213). -/
def State.waitJustified (s : State) : Bool :=
  if s.waiting then
    decide (s.run = .running) && decide (s.pc.toNat < s.mem.size) && s.input.isEmpty &&
      (match s.fetch with
        | .ok (.inp a) => (s.writeSlot (dest a)).isSome
        | _ => false)
  else true

/-- The invariant of the reachable states: program memory is in canonical form with P <= 32768, a finite
stack is not overfull, and a wait is an IN's. -/
abbrev State.Inv (s : State) : Prop :=
  s.mem.wf = true ∧ s.stackFits = true ∧ s.waitJustified = true

/-- The meanings of a list of instructions, one after the other. -/
def execAll : List Instr → State → Host.Outcome State Fault Refusal
  | [], s => .next s
  | i :: rest, s =>
    match exec i s with
    | .next t => execAll rest t
    | .fault kind => .fault kind
    | .refused why => .refused why

/-- No fault has been taken (spec/60_exceptions.md R221). -/
def State.notFaulted (s : State) : Bool :=
  match s.run with
  | .faulted _ => false
  | _ => true

/-- A safe run: k steps from s, none of which takes a fault. -/
def SafeRun (k : Nat) (s : State) : Prop :=
  ∀ n, n ≤ k → ∃ t, Host.Core.run Sys2Proof.core n s = .next t ∧ State.notFaulted t = true

end Sys2Proof.Machine
end

