-- ==== Sys2Proof/Certificates/Slice0/Obligations.lean ====
section
/-! DEFINITION. The statements for the provers, from the spec's numbered rules. A next state is written out
with the spec's own terms: `s.writeSlot` is `WriteSlot` (R75), `s.setSlot` the write of one slot, `s.value`
and `dest` the two operand kinds (R8); what these are is stated by ReadAddressMap, WriteAddressMap,
MemReadResolvesOneLevel, MemWriteIsVerbatimInOneSlot and FetchedOperandsAreValueAndDest. -/

open Sys2Proof Sys2Proof.Machine

/-! ### Encoding and decode -/

/-- Decode of encode, for every well-formed instruction with every operand (R100, R105, R106). -/
def Obligations.DecodeInvertsEncode : Prop :=
  ∀ (i : Instr) (rest : List Word), i.wf = true → decode (encode i ++ rest) = .ok (i, rest)

/-- Encode of decode: a decoded instruction is well formed and its words are the words decoded. -/
def Obligations.EncodeInvertsDecode : Prop :=
  ∀ (ws : List Word) (i : Instr) (rest : List Word),
    decode ws = .ok (i, rest) → i.wf = true ∧ encode i ++ rest = ws

/-- R108: opcode words 0 to 21 decode whatever operand words follow; 22 and above decode to nothing and the
step faults. -/
def Obligations.OpcodesZeroTo21AreTheInstructions : Prop :=
  ∀ (w a b c : Word) (ws : List Word),
    (w.toNat ≤ 21 → ∃ i rest, decode (w :: a :: b :: c :: ws) = .ok (i, rest)) ∧
    (22 ≤ w.toNat →
      decode (w :: ws) = .error (.opcodeOutOfRange w) ∧
      ∀ s : State, s.Fetching → s.memRead s.pc.toNat = .ok w →
        step s = .next { s with run := .faulted .outOfRangeOpcode })

/-- Words written out from the encoding lines of R140, R142, R151, R162, R170, R175, R191, R200, R211, R126. -/
def Obligations.WrittenOutWordsDecode : Prop :=
  decode [1, 32768, 65] = .ok (.set (.reg 0) (.literal 65), []) ∧
  decode [3, 32770] = .ok (.pop (.reg 2), []) ∧
  decode [5, 32768, 40000, 32767] = .ok (.gt (.reg 0) (.invalid 40000) (.literal 32767), []) ∧
  decode [8, 32775, 20] = .ok (.jf (.reg 7) (.literal 20), []) ∧
  decode [9, 32768, 32769, 15] = .ok (.add (.reg 0) (.reg 1) (.literal 15), []) ∧
  decode [14, 32768, 21845] = .ok (.not (.reg 0) (.literal 21845), []) ∧
  decode [16, 40, 32770] = .ok (.wmem (.literal 40) (.reg 2), []) ∧
  decode [17, 100] = .ok (.call (.literal 100), []) ∧
  decode [20, 0] = .ok (.inp (.literal 0), []) ∧
  decode [21, 19] = .ok (.noop, [19])

/-- R100: one opcode word, then 0 to 3 operand words at consecutive addresses; the length depends on the
opcode only. -/
def Obligations.LengthDependsOnTheOpcodeOnly : Prop :=
  ∀ i : Instr,
    (encode i).tail = i.operands.map Operand.word ∧
    1 ≤ (encode i).length ∧ (encode i).length ≤ 4 ∧
    ∀ j : Instr, (encode i).head? = (encode j).head? → (encode i).length = (encode j).length

/-- R102: the three classes of an operand word, by range and by bits. -/
def Obligations.OperandWordsHaveThreeClasses : Prop :=
  ∀ w : Word,
    (w.toNat ≤ 32767 → w.getLsbD 15 = false ∧ Operand.ofWord w = .literal (w.extractLsb' 0 15) ∧
      (w.extractLsb' 0 15).toNat = w.toNat) ∧
    (∀ r : Fin 8, w.toNat = 32768 + r.val → w.extractLsb' 3 13 = 0b1000000000000#13 ∧
      (w.extractLsb' 0 3).toNat = r.val ∧ Operand.ofWord w = .reg r) ∧
    (32776 ≤ w.toNat → w.getLsbD 15 = true ∧ w.extractLsb' 3 12 ≠ 0 ∧ Operand.ofWord w = .invalid w)

/-- R104: an invalid operand word is its own value as a source, and an address without a slot as a
destination (P <= 32768 by the invariant). -/
def Obligations.InvalidOperandWordsAreValuesAndBadAddresses : Prop :=
  ∀ (w : Word) (s : State), 32776 ≤ w.toNat → s.mem.size ≤ 32768 →
    s.value (.invalid w) = w ∧
    (∀ v : Word, s.memWrite (dest (.invalid w)) v = .error .outOfBoundsAddress) ∧
    ∀ b : Operand, exec (.set (.invalid w) b) s = .next { s with run := .faulted .outOfBoundsAddress }

/-- R8, R103: an operand cell's word read as a source is `MemRead` of the cell, and as a destination it is
the raw word. -/
def Obligations.FetchedOperandsAreValueAndDest : Prop :=
  ∀ (s : State) (A : Nat) (w : Word), s.rawRead A = .ok w →
    s.memRead A = .ok (s.value (Operand.ofWord w)) ∧ dest (Operand.ofWord w) = w.toNat

/-! ### Memory -/

/-- R74: the read decode, under both values of READ_CODE_WINDOW. -/
def Obligations.ReadAddressMap : Prop :=
  ∀ (s : State) (A : Nat),
    (∀ r : Fin 8, s.cfg.readCodeWindow = .register → A = 32768 + r.val → s.rawRead A = .ok (s.reg r)) ∧
    (s.cfg.readCodeWindow = .fault ∨ A < 32768 ∨ 32776 ≤ A →
      (A < s.mem.size → s.rawRead A = .ok (s.mem.read A)) ∧
      (∀ r : Fin 8, A = s.mem.size + r.val → s.rawRead A = .ok (s.reg r)) ∧
      (s.mem.size + 8 ≤ A → s.rawRead A = .error .outOfBoundsAddress)) ∧
    (s.mem.size = 32768 → ∀ t : State, t = { s with cfg := t.cfg } → t.rawRead A = s.rawRead A)

/-- R75: the write decode, and what a write to each kind of slot is. -/
def Obligations.WriteAddressMap : Prop :=
  ∀ (s : State) (A : Nat) (v : Word),
    (∀ r : Fin 8, A = 32768 + r.val →
      s.writeSlot A = some (.register r) ∧ s.memWrite A v = .ok { s with regs := s.regs.set r v }) ∧
    (A < 32768 ∨ 32776 ≤ A →
      (A < s.mem.size →
        s.writeSlot A = some (.program A) ∧ s.memWrite A v = .ok { s with mem := s.mem.write A v }) ∧
      (∀ r : Fin 8, A = s.mem.size + r.val →
        s.writeSlot A = some (.register r) ∧ s.memWrite A v = .ok { s with regs := s.regs.set r v }) ∧
      (s.mem.size + 8 ≤ A → s.writeSlot A = none ∧ s.memWrite A v = .error .outOfBoundsAddress)) ∧
    ∀ slot, s.writeSlot A = some slot → s.memWrite A v = .ok (s.setSlot slot v)

/-- R77: `MemRead` resolves a register reference by one level, and raises only the fault of the raw read. -/
def Obligations.MemReadResolvesOneLevel : Prop :=
  ∀ (s : State) (A : Nat),
    (∀ w : Word, s.rawRead A = .ok w →
      (∀ r : Fin 8, w.toNat = 32768 + r.val → s.memRead A = .ok (s.reg r)) ∧
      (w.toNat < 32768 ∨ 32776 ≤ w.toNat → s.memRead A = .ok w)) ∧
    (∀ kind, s.rawRead A = .error kind → s.memRead A = .error kind)

/-- R78: `MemWrite` stores the word verbatim in the one slot its address decodes to (program memory in
canonical form by the invariant), or faults as the write decode does. -/
def Obligations.MemWriteIsVerbatimInOneSlot : Prop :=
  ∀ (s : State) (A : Nat) (v : Word),
    (∀ t : State, s.mem.wf = true → s.memWrite A v = .ok t →
      (∀ B, s.readSlot B = s.writeSlot A → t.rawRead B = .ok v) ∧
      (∀ B, s.readSlot B ≠ s.writeSlot A → t.rawRead B = s.rawRead B) ∧
      t = { s with regs := t.regs, mem := t.mem } ∧ t.mem.size = s.mem.size ∧ t.mem.wf = true) ∧
    (s.writeSlot A = none ↔ s.memWrite A v = .error .outOfBoundsAddress)

/-! ### The cycle -/

/-- When the opcode at pc, resolved, and the words after it decode to an instruction, the step is that
instruction's meaning in the same state; the meaning itself moves pc (R122). -/
def Obligations.StepRunsDecodedInstruction : Prop :=
  ∀ (s : State) (op : Word) (ws : List Word) (i : Instr) (rest : List Word),
    s.Fetching → s.memRead s.pc.toNat = .ok op →
    (∀ k (h : k < ws.length), s.rawRead (s.pc.toNat + 1 + k) = .ok ws[k]) →
    decode (op :: ws) = .ok (i, rest) → step s = exec i s

/-- R121: at the start of a step, pc at or past P is a clean halt and nothing is fetched. -/
def Obligations.EndOfProgramHaltsBeforeTheFetch : Prop :=
  ∀ s : State, s.resetLine = .released → s.run = .running → s.mem.size ≤ s.pc.toNat →
    step s = .next { s with run := .halted .endOfProgram }

/-- R107: an opcode cell that holds a register reference dispatches on that register's value; a word of 22
or more, held or resolved to, is OUT_OF_RANGE_OPCODE. -/
def Obligations.OpcodeCellIsResolved : Prop :=
  ∀ (s : State) (w : Word), s.Fetching → s.rawRead s.pc.toNat = .ok w →
    (∀ (r : Fin 8) (ws : List Word) (i : Instr) (rest : List Word), w.toNat = 32768 + r.val →
      (∀ k (h : k < ws.length), s.rawRead (s.pc.toNat + 1 + k) = .ok ws[k]) →
      decode (s.reg r :: ws) = .ok (i, rest) → step s = exec i s) ∧
    (∀ r : Fin 8, w.toNat = 32768 + r.val → 22 ≤ (s.reg r).toNat →
      step s = .next { s with run := .faulted .outOfRangeOpcode }) ∧
    (22 ≤ w.toNat → w.toNat < 32768 ∨ 32776 ≤ w.toNat →
      step s = .next { s with run := .faulted .outOfRangeOpcode })

/-- R52, R59, R120: no instruction executes in HALTED, in FAULTED or in reset, with or without an image loaded,
and of the host's moves only the release of reset changes the run state. That such a step answers the same state
is the model's choice (log 5), and so is that asserting reset keeps the run state (log 12). -/
def Obligations.StoppedMachineTakesNoStep : Prop :=
  ∀ s : State,
    (∀ reason, s.run = .halted reason → step s = .next s) ∧
    (∀ kind, s.run = .faulted kind → step s = .next s) ∧
    (∀ image, s.resetLine = .asserted image → step s = .next s) ∧
    step (HostMove.assertReset.apply s) = .next (HostMove.assertReset.apply s) ∧
    ∀ m : HostMove, m ≠ .releaseReset → (m.apply s).run = s.run

/-- R123: below P the opcode and operand cells are all readable, a cell past the last program word reads its
register slot, and the fetch can fault on the opcode only. -/
def Obligations.OperandFetchNeverFaults : Prop :=
  ∀ s : State, s.Fetching →
    (∀ k, k ≤ 3 → ∃ w v, s.rawRead (s.pc.toNat + k) = .ok w ∧ s.memRead (s.pc.toNat + k) = .ok v) ∧
    (∀ k (r : Fin 8), s.cfg.readCodeWindow = .fault → k ≤ 3 → s.pc.toNat + k = s.mem.size + r.val →
      s.rawRead (s.pc.toNat + k) = .ok (s.reg r) ∧ s.memRead (s.pc.toNat + k) = .ok (s.resolve (s.reg r))) ∧
    (∀ kind, s.fetch = .error kind → kind = .outOfRangeOpcode)

/-- R86, R254: the word a WMEM stores over the next instruction's opcode is the word the next step fetches. -/
def Obligations.StoredOpcodeIsFetchedNext : Prop :=
  ∀ (s : State) (a b : Operand), s.Fetching → s.mem.wf = true → s.fetch = .ok (.wmem a b) →
    (s.value a).toNat = s.pc.toNat + 3 → s.pc.toNat + 3 < s.mem.size →
    ∃ t : State, step s = .next t ∧ t.pc.toNat = s.pc.toNat + 3 ∧
      t.rawRead t.pc.toNat = .ok (s.value b) ∧ t.memRead t.pc.toNat = .ok (s.resolve (s.value b))

/-- Every run of steps answers a next state, and it has taken no fault on its way exactly when its last state
is not FAULTED (R52, R221). That a step always answers a next state rests on the model's choices: a fault is a
next state (log 4), a step in HALTED, FAULTED or reset answers the same state (log 5), and an IN's wait is a step
where R213 asks for no transition (log 6). -/
def Obligations.RunsAnswerAndFaultsPersist : Prop :=
  ∀ (k : Nat) (s : State), ∃ t : State,
    Host.Core.run Sys2Proof.core k s = .next t ∧ (t.notFaulted = true ↔ SafeRun k s)

/-! ### The instructions, one rule each: encoding, effect, faults -/

/-- R125. -/
def Obligations.HaltStopsWithPcUnchanged : Prop :=
  ∀ s : State,
    encode .halt = [0] ∧ exec .halt s = .next { s with run := .halted .haltInstruction } ∧
    (s.Fetching → s.memRead s.pc.toNat = .ok 0 → step s = .next { s with run := .halted .haltInstruction })

/-- R126, with its corner case at P - 1. -/
def Obligations.NoopOnlyAdvancesPc : Prop :=
  ∀ s : State,
    encode .noop = [21] ∧ exec .noop s = .next { s with pc := s.pc + 1 } ∧
    (s.Fetching → s.memRead s.pc.toNat = .ok 21 →
      step s = .next { s with pc := s.pc + 1 } ∧
      (s.mem.size ≤ 32768 → s.pc.toNat + 1 = s.mem.size →
        step { s with pc := s.pc + 1 } = .next { s with pc := s.pc + 1, run := .halted .endOfProgram }))

/-- R140. -/
def Obligations.SetWritesTheValueOfB : Prop :=
  ∀ (a b : Operand) (s : State),
    encode (.set a b) = [1, a.word, b.word] ∧
    (∀ slot, s.writeSlot (dest a) = some slot →
      exec (.set a b) s = .next { s.setSlot slot (s.value b) with pc := s.pc + 3 }) ∧
    (∀ r : Fin 8, a = .reg r →
      exec (.set a b) s = .next { s with regs := s.regs.set r (s.value b), pc := s.pc + 3 }) ∧
    (s.writeSlot (dest a) = none → exec (.set a b) s = .next { s with run := .faulted .outOfBoundsAddress })

/-- R141. -/
def Obligations.PushPutsTheValueOnTop : Prop :=
  ∀ (a : Operand) (s : State),
    encode (.push a) = [2, a.word] ∧
    ((∀ n, s.cfg.stackCapacity = some n → s.stack.length < n) →
      exec (.push a) s = .next { s with stack := s.value a :: s.stack, pc := s.pc + 2 }) ∧
    (∀ n, s.cfg.stackCapacity = some n → n ≤ s.stack.length →
      exec (.push a) s = .next { s with run := .faulted .stackOverflow })

/-- R142: the empty stack is checked before the destination. -/
def Obligations.PopWritesTheTop : Prop :=
  ∀ (a : Operand) (s : State),
    encode (.pop a) = [3, a.word] ∧
    (∀ v rest slot, s.stack = v :: rest → s.writeSlot (dest a) = some slot →
      exec (.pop a) s = .next { s.setSlot slot v with stack := rest, pc := s.pc + 2 }) ∧
    (s.stack = [] → exec (.pop a) s = .next { s with run := .faulted .emptyStackPop }) ∧
    (s.stack ≠ [] → s.writeSlot (dest a) = none →
      exec (.pop a) s = .next { s with run := .faulted .outOfBoundsAddress })

/-- R150, R151: the comparison is of 16-bit unsigned values, GT strict. -/
def Obligations.EqAndGtWriteOneOrZero : Prop :=
  ∀ (a b c : Operand) (s : State),
    encode (.eq a b c) = [4, a.word, b.word, c.word] ∧ encode (.gt a b c) = [5, a.word, b.word, c.word] ∧
    (∀ slot, s.writeSlot (dest a) = some slot →
      (s.value b = s.value c → exec (.eq a b c) s = .next { s.setSlot slot 1 with pc := s.pc + 4 }) ∧
      (s.value b ≠ s.value c → exec (.eq a b c) s = .next { s.setSlot slot 0 with pc := s.pc + 4 }) ∧
      ((s.value c).toNat < (s.value b).toNat →
        exec (.gt a b c) s = .next { s.setSlot slot 1 with pc := s.pc + 4 }) ∧
      ((s.value b).toNat ≤ (s.value c).toNat →
        exec (.gt a b c) s = .next { s.setSlot slot 0 with pc := s.pc + 4 })) ∧
    (s.writeSlot (dest a) = none →
      exec (.eq a b c) s = .next { s with run := .faulted .outOfBoundsAddress } ∧
      exec (.gt a b c) s = .next { s with run := .faulted .outOfBoundsAddress })

/-- R160: by the class of the operand; a target at or past P ends the run cleanly at the next step. -/
def Obligations.JmpGoesToTheValue : Prop :=
  ∀ (s : State),
    (∀ a : Operand, encode (.jmp a) = [6, a.word]) ∧
    (∀ v : BitVec 15, exec (.jmp (.literal v)) s = .next { s with pc := BitVec.ofNat 16 v.toNat }) ∧
    (∀ r : Fin 8, exec (.jmp (.reg r)) s = .next { s with pc := s.reg r }) ∧
    (∀ w : Word, 32776 ≤ w.toNat → exec (.jmp (.invalid w)) s = .next { s with pc := w }) ∧
    (∀ (a : Operand) (t : State), s.resetLine = .released → s.run = .running →
      s.mem.size ≤ (s.value a).toNat → exec (.jmp a) s = .next t →
      step t = .next { t with run := .halted .endOfProgram })

/-- R161, R162. -/
def Obligations.ConditionalJumpsTestForZero : Prop :=
  ∀ (a b : Operand) (s : State),
    encode (.jt a b) = [7, a.word, b.word] ∧ encode (.jf a b) = [8, a.word, b.word] ∧
    (s.value a ≠ 0 →
      exec (.jt a b) s = .next { s with pc := s.value b } ∧ exec (.jf a b) s = .next { s with pc := s.pc + 3 }) ∧
    (s.value a = 0 →
      exec (.jt a b) s = .next { s with pc := s.pc + 3 } ∧ exec (.jf a b) s = .next { s with pc := s.value b })

/-- R170. -/
def Obligations.AddWritesTheSumModulo32768 : Prop :=
  ∀ (a b c : Operand) (s : State),
    encode (.add a b c) = [9, a.word, b.word, c.word] ∧
    (∀ slot (v : Word), s.writeSlot (dest a) = some slot →
      v.toNat = ((s.value b).toNat + (s.value c).toNat) % 32768 →
      exec (.add a b c) s = .next { s.setSlot slot v with pc := s.pc + 4 }) ∧
    (s.writeSlot (dest a) = none → exec (.add a b c) s = .next { s with run := .faulted .outOfBoundsAddress })

/-- R171: the exact product under MULT_SEMANTICS = multiply, the sum under add. -/
def Obligations.MultWritesTheProductModulo32768 : Prop :=
  ∀ (a b c : Operand) (s : State),
    encode (.mult a b c) = [10, a.word, b.word, c.word] ∧
    (∀ slot (v : Word), s.writeSlot (dest a) = some slot → s.cfg.multSemantics = .multiply →
      v.toNat = ((s.value b).toNat * (s.value c).toNat) % 32768 →
      exec (.mult a b c) s = .next { s.setSlot slot v with pc := s.pc + 4 }) ∧
    (∀ slot (v : Word), s.writeSlot (dest a) = some slot → s.cfg.multSemantics = .add →
      v.toNat = ((s.value b).toNat + (s.value c).toNat) % 32768 →
      exec (.mult a b c) s = .next { s.setSlot slot v with pc := s.pc + 4 }) ∧
    Config.spec.multSemantics = .multiply ∧
    (s.writeSlot (dest a) = none → exec (.mult a b c) s = .next { s with run := .faulted .outOfBoundsAddress })

/-- R172: the zero divisor is checked before the destination; the remainder is not reduced. -/
def Obligations.ModWritesTheRemainder : Prop :=
  ∀ (a b c : Operand) (s : State),
    encode (.mod a b c) = [11, a.word, b.word, c.word] ∧
    (∀ slot (v : Word), s.value c ≠ 0 → s.writeSlot (dest a) = some slot →
      v.toNat = (s.value b).toNat % (s.value c).toNat →
      exec (.mod a b c) s = .next { s.setSlot slot v with pc := s.pc + 4 }) ∧
    (s.value c = 0 → exec (.mod a b c) s = .next { s with run := .faulted .modByZero }) ∧
    (s.value c ≠ 0 → s.writeSlot (dest a) = none →
      exec (.mod a b c) s = .next { s with run := .faulted .outOfBoundsAddress })

/-- R173, R174: 16-bit bitwise, bit by bit, not masked. -/
def Obligations.AndAndOrAreBitwise : Prop :=
  ∀ (a b c : Operand) (s : State),
    encode (.and a b c) = [12, a.word, b.word, c.word] ∧ encode (.or a b c) = [13, a.word, b.word, c.word] ∧
    (∀ slot (v : Word), s.writeSlot (dest a) = some slot →
      (∀ n, n < 16 → v.getLsbD n = ((s.value b).getLsbD n && (s.value c).getLsbD n)) →
      exec (.and a b c) s = .next { s.setSlot slot v with pc := s.pc + 4 }) ∧
    (∀ slot (v : Word), s.writeSlot (dest a) = some slot →
      (∀ n, n < 16 → v.getLsbD n = ((s.value b).getLsbD n || (s.value c).getLsbD n)) →
      exec (.or a b c) s = .next { s.setSlot slot v with pc := s.pc + 4 }) ∧
    (s.writeSlot (dest a) = none →
      exec (.and a b c) s = .next { s with run := .faulted .outOfBoundsAddress } ∧
      exec (.or a b c) s = .next { s with run := .faulted .outOfBoundsAddress })

/-- R175: bits 14:0 of the complement; bit 15 of the result is 0. -/
def Obligations.NotComplementsFifteenBits : Prop :=
  ∀ (a b : Operand) (s : State),
    encode (.not a b) = [14, a.word, b.word] ∧
    (∀ slot (v : Word), s.writeSlot (dest a) = some slot →
      (∀ n, n < 15 → v.getLsbD n = !(s.value b).getLsbD n) → v.getLsbD 15 = false →
      exec (.not a b) s = .next { s.setSlot slot v with pc := s.pc + 3 }) ∧
    (s.writeSlot (dest a) = none → exec (.not a b) s = .next { s with run := .faulted .outOfBoundsAddress })

/-- R190: the word read is resolved once more; the read is checked before the destination. -/
def Obligations.RmemLoadsTheResolvedWord : Prop :=
  ∀ (a b : Operand) (s : State),
    encode (.rmem a b) = [15, a.word, b.word] ∧
    (∀ (w : Word) slot, s.rawRead (s.value b).toNat = .ok w → s.writeSlot (dest a) = some slot →
      exec (.rmem a b) s = .next { s.setSlot slot (s.resolve w) with pc := s.pc + 3 }) ∧
    (s.readSlot (s.value b).toNat = none →
      exec (.rmem a b) s = .next { s with run := .faulted .outOfBoundsAddress }) ∧
    (s.writeSlot (dest a) = none →
      exec (.rmem a b) s = .next { s with run := .faulted .outOfBoundsAddress })

/-- R191: the address is the resolved value of a, and the word is stored verbatim. -/
def Obligations.WmemStoresAtTheComputedAddress : Prop :=
  ∀ (a b : Operand) (s : State),
    encode (.wmem a b) = [16, a.word, b.word] ∧
    (∀ slot, s.writeSlot (s.value a).toNat = some slot →
      exec (.wmem a b) s = .next { s.setSlot slot (s.value b) with pc := s.pc + 3 }) ∧
    (∀ r q : Fin 8, a = .reg r → (s.reg r).toNat = 32768 + q.val →
      exec (.wmem a b) s = .next { s with regs := s.regs.set q (s.value b), pc := s.pc + 3 }) ∧
    (s.writeSlot (s.value a).toNat = none →
      exec (.wmem a b) s = .next { s with run := .faulted .outOfBoundsAddress })

/-- R200. -/
def Obligations.CallPushesTheReturnAddress : Prop :=
  ∀ (a : Operand) (s : State),
    encode (.call a) = [17, a.word] ∧
    ((∀ n, s.cfg.stackCapacity = some n → s.stack.length < n) →
      exec (.call a) s = .next { s with stack := (s.pc + 2) :: s.stack, pc := s.value a }) ∧
    (∀ n, s.cfg.stackCapacity = some n → n ≤ s.stack.length →
      exec (.call a) s = .next { s with run := .faulted .stackOverflow })

/-- R201: on an empty stack a clean halt, not a fault. -/
def Obligations.RetPopsTheTargetOrHalts : Prop :=
  ∀ s : State,
    encode .ret = [18] ∧
    (s.stack = [] → exec .ret s = .next { s with run := .halted .returnEmpty }) ∧
    (∀ v rest, s.stack = v :: rest → exec .ret s = .next { s with stack := rest, pc := v })

/-- R210. -/
def Obligations.OutEmitsTheLowByte : Prop :=
  ∀ (a : Operand) (s : State),
    encode (.out a) = [19, a.word] ∧
    ∀ b : Byte, b.toNat = (s.value a).toNat % 256 →
      exec (.out a) s = .next { s with output := s.output ++ [b], pc := s.pc + 2 }

/-- R211: the destination is checked before the input, and no byte is taken on the fault. -/
def Obligations.InTakesOneByte : Prop :=
  ∀ (a : Operand) (s : State),
    encode (.inp a) = [20, a.word] ∧
    (∀ slot (b : Byte) (rest : List Byte) (v : Word), s.writeSlot (dest a) = some slot → s.input = b :: rest →
      v.toNat = b.toNat →
      exec (.inp a) s = .next { s.setSlot slot v with input := rest, waiting := false, pc := s.pc + 2 }) ∧
    (s.writeSlot (dest a) = none → exec (.inp a) s = .next { s with run := .faulted .outOfBoundsAddress })

/-- R213: with no byte offered an IN waits with pc at the IN, the status word reports WAITING_INPUT, the wait
lasts as long as no byte is offered, and with an offered byte the step completes. That the wait is a step
that changes the waiting bit only is the model's choice (log 6, log 7). -/
def Obligations.InWaitsForAByte : Prop :=
  ∀ (s : State) (a : Operand) (slot : Slot), s.Fetching → s.fetch = .ok (.inp a) →
    s.writeSlot (dest a) = some slot → s.input = [] →
    exec (.inp a) s = .next { s with waiting := true } ∧
    step s = .next { s with waiting := true } ∧
    step { s with waiting := true } = .next { s with waiting := true } ∧
    State.statusWord { s with waiting := true } = 3 ∧
    ∀ (b : Byte) (v : Word), v.toNat = b.toNat →
      step ((HostMove.offerByte b).apply { s with waiting := true }) =
        .next { s.setSlot slot v with input := [], waiting := false, pc := s.pc + 2 }

/-! ### Laws over several instructions -/

/-- R176: ADD, MULT and NOT write 0 to 32767 whatever their inputs and take no trap; MOD, AND and OR do when
both inputs are 0 to 32767, and for other inputs may write more. -/
def Obligations.ArithmeticResultRange : Prop :=
  (∀ (a b c : Operand) (s : State) (slot : Slot), s.writeSlot (dest a) = some slot →
    (∃ v : Word, v.toNat ≤ 32767 ∧ exec (.add a b c) s = .next { s.setSlot slot v with pc := s.pc + 4 }) ∧
    (∃ v : Word, v.toNat ≤ 32767 ∧ exec (.mult a b c) s = .next { s.setSlot slot v with pc := s.pc + 4 }) ∧
    (∃ v : Word, v.toNat ≤ 32767 ∧ exec (.not a b) s = .next { s.setSlot slot v with pc := s.pc + 3 }) ∧
    ((s.value b).toNat ≤ 32767 → (s.value c).toNat ≤ 32767 →
      (∃ v : Word, v.toNat ≤ 32767 ∧ exec (.and a b c) s = .next { s.setSlot slot v with pc := s.pc + 4 }) ∧
      (∃ v : Word, v.toNat ≤ 32767 ∧ exec (.or a b c) s = .next { s.setSlot slot v with pc := s.pc + 4 }) ∧
      (s.value c ≠ 0 →
        ∃ v : Word, v.toNat ≤ 32767 ∧ exec (.mod a b c) s = .next { s.setSlot slot v with pc := s.pc + 4 }))) ∧
  (∃ (b c : Operand) (s t : State), exec (.mod (.reg 0) b c) s = .next t ∧ t.run = .running ∧ 32768 ≤ (t.reg 0).toNat) ∧
  (∃ (b c : Operand) (s t : State), exec (.and (.reg 0) b c) s = .next t ∧ t.run = .running ∧ 32768 ≤ (t.reg 0).toNat) ∧
  (∃ (b c : Operand) (s t : State), exec (.or (.reg 0) b c) s = .next t ∧ t.run = .running ∧ 32768 ≤ (t.reg 0).toNat)

/-- R177: adding the literal 32768 - k subtracts k modulo 32768, for k from 1 to 32767; the word 32768 is the
register reference r0. -/
def Obligations.SubtractionByAddition : Prop :=
  (∀ (a b : Operand) (s : State) (slot : Slot) (k : Nat) (w v : Word),
    s.writeSlot (dest a) = some slot → 1 ≤ k → k ≤ 32767 → w.toNat = 32768 - k →
    (v.toNat : Int) = ((s.value b).toNat - k : Int) % 32768 →
    exec (.add a b (Operand.ofWord w)) s = .next { s.setSlot slot v with pc := s.pc + 4 }) ∧
  Operand.ofWord 32768 = .reg 0

/-- R200, R201: a RET at any later pc, with the stack as the CALL left it, returns to the CALL's address
plus 2 and leaves the stack as it was before the CALL. -/
def Obligations.CallThenReturnRestores : Prop :=
  ∀ (a : Operand) (s : State), (∀ n, s.cfg.stackCapacity = some n → s.stack.length < n) →
    ∃ t : State, exec (.call a) s = .next t ∧
      ∀ p : Word, exec .ret { t with pc := p } = .next { s with pc := s.pc + 2 }

/-- R44, R45: pushing v1..vn and popping n times leaves the stack as it was, the pops give vn..v1 (the last
gives v1), and one more POP of an empty stack is EMPTY_STACK_POP. -/
def Obligations.StackIsLastInFirstOut : Prop :=
  ∀ (vs : List (BitVec 15)) (r : Fin 8) (s : State), s.cfg.stackCapacity = none →
    ∃ t u : State,
      execAll (vs.map fun v => .push (.literal v)) s = .next t ∧
      t.stack = (vs.map fun v => v.setWidth 16).reverse ++ s.stack ∧
      execAll (List.replicate vs.length (.pop (.reg r))) t = .next u ∧
      u.stack = s.stack ∧
      (∀ v rest, vs = v :: rest → u.reg r = v.setWidth 16) ∧
      (s.stack = [] → exec (.pop (.reg r)) u = .next { u with run := .faulted .emptyStackPop })

/-- R222: a fault changes the run state and nothing else, for every instruction and every step. -/
def Obligations.FaultsArePrecise : Prop :=
  ∀ (s t : State) (kind : Fault), s.run = .running → t.run = .faulted kind →
    (∀ i : Instr, exec i s = .next t → t = { s with run := .faulted kind }) ∧
    (step s = .next t → t = { s with run := .faulted kind })

/-- R124: a halt changes the run state and nothing else, for every instruction and every step. -/
def Obligations.HaltsChangeOnlyTheRunState : Prop :=
  ∀ (s t : State) (reason : HaltReason), s.run = .running → t.run = .halted reason →
    (∀ i : Instr, exec i s = .next t → t = { s with run := .halted reason }) ∧
    (step s = .next t → t = { s with run := .halted reason })

/-- R127: the next pc is pc + L, an operand's value (JMP, CALL, taken JT and JF), a popped word (RET), or,
after a halt, a fault or in a wait, the pc unchanged. -/
def Obligations.NextPcComesFromTheFourSources : Prop :=
  ∀ (i : Instr) (s t : State), s.run = .running → exec i s = .next t →
    (t.run = .running ∧ t.pc = s.pc + BitVec.ofNat 16 (encode i).length) ∨
    (∃ a c, (i = .jmp a ∨ i = .call a ∨ (i = .jt c a ∧ s.value c ≠ 0) ∨ (i = .jf c a ∧ s.value c = 0)) ∧
      t.run = .running ∧ t.pc = s.value a) ∨
    (i = .ret ∧ t.run = .running ∧ s.stack = t.pc :: t.stack) ∨
    (t.run ≠ .running ∧ t.pc = s.pc) ∨
    (∃ a, i = .inp a ∧ s.input = [] ∧ t = { s with waiting := true })

/-- R43: below P the fall-through pc and CALL's return address do not wrap (P <= 32768 by the invariant). -/
def Obligations.PcNeverWraps : Prop :=
  ∀ (i : Instr) (s : State), s.mem.size ≤ 32768 → s.pc.toNat < s.mem.size →
    (s.pc + BitVec.ofNat 16 (encode i).length).toNat = s.pc.toNat + (encode i).length ∧
    (s.pc + BitVec.ofNat 16 (encode i).length).toNat ≤ 32771 ∧
    (s.pc + 2).toNat = s.pc.toNat + 2 ∧ (s.pc + 2).toNat ≤ 32769

/-! ### Frames -/

/-- SET, EQ, GT, ADD, MULT, MOD, AND, OR, NOT and RMEM change no register and no address but the slot of their
destination word, no stack, stream, waiting bit or constant; they may move pc and take a fault (R33, R48). -/
def Obligations.ResultInstructionsWriteOnlyTheirDestination : Prop :=
  ∀ (d b c : Operand) (i : Instr) (s t : State),
    i ∈ [.set d b, .eq d b c, .gt d b c, .add d b c, .mult d b c, .mod d b c, .and d b c, .or d b c, .not d b,
      .rmem d b] →
    exec i s = .next t →
    (∀ r : Fin 8, s.writeSlot (dest d) ≠ some (.register r) → t.reg r = s.reg r) ∧
    (∀ A, s.readSlot A ≠ s.writeSlot (dest d) → t.rawRead A = s.rawRead A) ∧
    t.stack = s.stack ∧ t.output = s.output ∧ t.input = s.input ∧ t.waiting = s.waiting ∧
    t.mem.size = s.mem.size ∧ t.cfg = s.cfg ∧ t.resetLine = s.resetLine

/-- POP and IN change no register and no address but the slot of their destination word; POP takes from the
stack only, IN from the input and the waiting bit only (R33, R48, R61). -/
def Obligations.PopAndInWriteOnlyTheirDestination : Prop :=
  ∀ (d : Operand) (i : Instr) (s t : State), i ∈ [.pop d, .inp d] → exec i s = .next t →
    (∀ r : Fin 8, s.writeSlot (dest d) ≠ some (.register r) → t.reg r = s.reg r) ∧
    (∀ A, s.readSlot A ≠ s.writeSlot (dest d) → t.rawRead A = s.rawRead A) ∧
    (i = .inp d → t.stack = s.stack) ∧ (i = .pop d → t.input = s.input ∧ t.waiting = s.waiting) ∧
    t.output = s.output ∧ t.mem.size = s.mem.size ∧ t.cfg = s.cfg ∧ t.resetLine = s.resetLine

/-- WMEM changes no register and no address but the slot of the value of a (R33, R191). -/
def Obligations.WmemWritesOnlyTheComputedAddress : Prop :=
  ∀ (a b : Operand) (s t : State), exec (.wmem a b) s = .next t →
    (∀ r : Fin 8, s.writeSlot (s.value a).toNat ≠ some (.register r) → t.reg r = s.reg r) ∧
    (∀ A, s.readSlot A ≠ s.writeSlot (s.value a).toNat → t.rawRead A = s.rawRead A) ∧
    t.stack = s.stack ∧ t.output = s.output ∧ t.input = s.input ∧ t.waiting = s.waiting ∧
    t.mem.size = s.mem.size ∧ t.cfg = s.cfg ∧ t.resetLine = s.resetLine

/-- HALT, PUSH, JMP, JT, JF, CALL, RET, OUT and NOOP write no register and no address (R33); only PUSH, CALL
and RET touch the stack (R48) and only OUT the output (R57). -/
def Obligations.OtherInstructionsWriteNoSlot : Prop :=
  ∀ (a b : Operand) (i : Instr) (s t : State),
    i ∈ [.halt, .push a, .jmp a, .jt a b, .jf a b, .call a, .ret, .out a, .noop] → exec i s = .next t →
    (∀ r : Fin 8, t.reg r = s.reg r) ∧ (∀ A, t.rawRead A = s.rawRead A) ∧
    (i ∉ [.push a, .call a, .ret] → t.stack = s.stack) ∧ (i ≠ .out a → t.output = s.output) ∧
    t.input = s.input ∧ t.waiting = s.waiting ∧
    t.mem.size = s.mem.size ∧ t.cfg = s.cfg ∧ t.resetLine = s.resetLine

/-! ### The whole machine -/

/-- Every step keeps the invariant: program memory in canonical form with P <= 32768 (R37), a finite stack not
overfull (R47), the waiting bit set only at an IN that waits (R56, R213; log 6). -/
def Obligations.StepKeepsTheInvariant : Prop :=
  ∀ s t : State, s.Inv → step s = .next t → t.Inv

/-- Every state at the release of reset, State.reset among them, meets the invariant (R251). -/
def Obligations.ResetMeetsTheInvariant : Prop :=
  State.reset.Inv ∧ ∀ (cfg : Config) (ws : List Word) (offered : List Byte), (State.construct cfg ws offered).Inv

/-- Every move of the host keeps the invariant (R65). -/
def Obligations.HostMovesKeepTheInvariant : Prop :=
  ∀ (m : HostMove) (s : State), s.Inv → (m.apply s).Inv

/-- A step never changes the program size, the configuration or the reset line (R7, R37); it appends at most
one byte to the output (R57) and takes at most one byte from the front of the input (R58). -/
def Obligations.StepsKeepConstantsAndStreamOrder : Prop :=
  ∀ s t : State, step s = .next t →
    t.mem.size = s.mem.size ∧ t.cfg = s.cfg ∧ t.resetLine = s.resetLine ∧
    (∃ bs : List Byte, bs.length ≤ 1 ∧ t.output = s.output ++ bs) ∧
    (∃ bs : List Byte, bs.length ≤ 1 ∧ s.input = bs ++ t.input)

/-- R63: the status word's fields, for every run state. -/
def Obligations.StatusWordFields : Prop :=
  ∀ s : State,
    (s.run = .running → s.waiting = false → s.statusWord = 0) ∧
    (s.run = .running → s.waiting = true → s.statusWord = 3) ∧
    (∀ reason, s.run = .halted reason → (s.statusWord.extractLsb' 0 2).toNat = 1 ∧
      (s.statusWord.extractLsb' 4 4).toNat = reason.code) ∧
    (∀ kind, s.run = .faulted kind → (s.statusWord.extractLsb' 0 2).toNat = 2 ∧
      (s.statusWord.extractLsb' 4 4).toNat = kind.code) ∧
    s.statusWord.extractLsb' 2 2 = 0 ∧ s.statusWord.extractLsb' 8 8 = 0 ∧
    (∀ (cfg : Config) (ws : List Word) (offered : List Byte), ws.length ≤ 32768 →
      (State.construct cfg ws offered).statusWord = 0) ∧
    [HaltReason.haltInstruction, .endOfProgram, .returnEmpty].map HaltReason.code = [1, 2, 3] ∧
    [Fault.outOfBoundsAddress, .outOfRangeOpcode, .emptyStackPop, .modByZero, .stackOverflow,
      .imageTooLarge].map Fault.code = [1, 2, 3, 4, 5, 6]

/-- R250, R251, R60: reset asserted in any state, a load of ws and the release give every piece of state its
reset value; a load of more than 32768 words leaves FAULTED(IMAGE_TOO_LARGE). -/
def Obligations.ResetSetsEveryResetValue : Prop :=
  ∀ (s t : State) (ws : List Word),
    t = HostMove.releaseReset.apply ((HostMove.load ws).apply (HostMove.assertReset.apply s)) →
    (∀ r : Fin 8, t.reg r = 0) ∧ t.pc = 0 ∧ t.stack = [] ∧ t.output = [] ∧ t.waiting = false ∧
    t.input = s.input ∧ t.cfg = s.cfg ∧ t.resetLine = .released ∧
    (ws.length ≤ 32768 → t.run = .running ∧ t.statusWord = 0 ∧ t.mem.size = ws.length ∧
      ∀ k (h : k < ws.length), t.rawRead k = .ok ws[k]) ∧
    (32768 < ws.length → t.run = .faulted .imageTooLarge)

/-- R64, R65: the debug port reads the eight registers, and the host writes no register, program word, pc or
stack but by the release of reset; a release with no load delivered changes nothing (the model's choice,
log 12). -/
def Obligations.HostWritesOnlyByReset : Prop :=
  ∀ (m : HostMove) (s : State),
    (∀ r : Fin 8, s.registerSnapshot[r] = s.reg r) ∧
    ((∀ ws, s.resetLine ≠ .asserted (some ws)) ∨ m ≠ .releaseReset →
      (m.apply s).regs = s.regs ∧ (m.apply s).mem = s.mem ∧ (m.apply s).pc = s.pc ∧
      (m.apply s).stack = s.stack ∧ (m.apply s).output = s.output ∧ (m.apply s).cfg = s.cfg)
end

