-- ==== Sys2Proof/Laws/Decode.lean ====
section
/-! SUPPORT. Operand words and their classes, and the parts of the decoder. -/

namespace Sys2Proof

theorem regRef?_eq_some {n : Nat} {r : Fin 8} : regRef? n = some r ↔ n = 32768 + r.val := by
  unfold regRef?
  split
  · simp only [Option.some.injEq, Fin.ext_iff]; omega
  · simp only [reduceCtorEq, false_iff]; have := r.isLt; omega

theorem regRef?_eq_none {n : Nat} : regRef? n = none ↔ n < 32768 ∨ 32776 ≤ n := by
  unfold regRef?
  split <;> simp <;> omega

/-- A word's class holds the word. -/
theorem Operand.word_ofWord (w : Word) : (Operand.ofWord w).word = w := by
  have hw := w.isLt
  unfold Operand.ofWord
  split
  · apply BitVec.eq_of_toNat_eq
    simp only [Operand.word, BitVec.toNat_setWidth]
    omega
  · split
    · rename_i r hr
      rw [regRef?_eq_some] at hr
      apply BitVec.eq_of_toNat_eq
      simp only [Operand.word, BitVec.toNat_ofNat]
      omega
    · rfl

/-- A word's class is well formed. -/
theorem Operand.wf_ofWord (w : Word) : (Operand.ofWord w).wf = true := by
  unfold Operand.ofWord
  split
  · rfl
  · split
    · rfl
    · rename_i hn
      rw [regRef?_eq_none] at hn
      simp only [Operand.wf, decide_eq_true_eq]
      omega

/-- A well-formed operand is the class of its word. -/
theorem Operand.ofWord_word {o : Operand} (h : o.wf = true) : Operand.ofWord o.word = o := by
  cases o with
  | literal v =>
    have hv := v.isLt
    have hlt : (Operand.literal v).word.toNat < 32768 := by
      simp only [Operand.word, BitVec.toNat_setWidth]; omega
    simp only [Operand.ofWord, hlt, if_true, Operand.literal.injEq]
    apply BitVec.eq_of_toNat_eq
    simp only [Operand.word, BitVec.toNat_setWidth]
    omega
  | reg r =>
    have hr := r.isLt
    have hw : (Operand.reg r).word.toNat = 32768 + r.val := by
      simp only [Operand.word, BitVec.toNat_ofNat]; omega
    have hge : ¬ (Operand.reg r).word.toNat < 32768 := by omega
    simp only [Operand.ofWord, hge, if_false, regRef?_eq_some.mpr hw]
  | invalid w =>
    simp only [Operand.wf, decide_eq_true_eq] at h
    have hge : ¬ w.toNat < 32768 := by omega
    have hn : regRef? w.toNat = none := regRef?_eq_none.mpr (Or.inr h)
    simp only [Operand.word, Operand.ofWord, hge, if_false, hn]

/-- Only 0 to 21 name an instruction (R107). -/
theorem Opcode.ofNat?_isSome {n : Nat} : (Opcode.ofNat? n).isSome = true ↔ n ≤ 21 := by
  constructor
  · intro h
    by_contra hn
    have : Opcode.ofNat? n = none := by
      unfold Opcode.ofNat?
      split <;> first | rfl | omega
    simp [this] at h
  · intro h
    interval_cases n <;> rfl

theorem Opcode.ofNat?_eq_none {n : Nat} : Opcode.ofNat? n = none ↔ 22 ≤ n := by
  have h := Opcode.ofNat?_isSome (n := n)
  cases hn : Opcode.ofNat? n with
  | none => simp [hn] at h; simp; omega
  | some o => simp [hn] at h; simp; omega

/-- What decoding a nonempty list of words gives, when it gives an instruction. -/
theorem decode_ok_iff {w : Word} {ws : List Word} {i : Instr} {rest : List Word} :
    decode (w :: ws) = .ok (i, rest) ↔
      ∃ o, Opcode.ofNat? w.toNat = some o ∧ o.format.operandCount ≤ ws.length ∧
        i = o.assemble (operandAt ws 0) (operandAt ws 1) (operandAt ws 2) ∧ rest = ws.drop o.format.operandCount := by
  cases ho : Opcode.ofNat? w.toNat with
  | none => simp [decode, ho]
  | some o =>
    by_cases hl : ws.length < o.format.operandCount
    · simp [decode, ho, hl]
    · simp only [decode, ho, hl, if_false, Except.ok.injEq, Prod.mk.injEq, Option.some.injEq, exists_eq_left']
      constructor
      · rintro ⟨rfl, rfl⟩; exact ⟨by omega, rfl, rfl⟩
      · rintro ⟨_, rfl, rfl⟩; exact ⟨rfl, rfl⟩

/-- With its operand words there, an opcode word up to 21 decodes. -/
theorem decode_exact {w : Word} {o : Opcode} {ws : List Word} (ho : Opcode.ofNat? w.toNat = some o)
    (hl : ws.length = operandCount w) :
    decode (w :: ws) = .ok (o.assemble (operandAt ws 0) (operandAt ws 1) (operandAt ws 2), []) := by
  have hc : operandCount w = o.format.operandCount := by simp [operandCount, ho]
  rw [decode_ok_iff]
  exact ⟨o, ho, by omega, rfl, by rw [List.drop_eq_nil_of_le (by omega)]⟩

end Sys2Proof
end

