-- ==== Sys2Proof/Laws/Memory.lean ====
section
/-! SUPPORT. Program memory: a read after a write, and every operation keeps the canonical form. -/

namespace Sys2Proof.Machine

/-- Widening the address range keeps the canonical form. -/
theorem cellsWf_mono {lo lo' hi hi' : Nat} (hlo : lo' ≤ lo) (hhi : hi ≤ hi') :
    ∀ {cs : List (Nat × Word)}, cellsWf lo hi cs = true → cellsWf lo' hi' cs = true
  | [], _ => rfl
  | (i, v) :: rest, h => by
    simp only [cellsWf, Bool.and_eq_true, decide_eq_true_eq] at h ⊢
    exact ⟨⟨⟨by omega, by omega⟩, h.1.2⟩, cellsWf_mono (le_refl _) hhi h.2⟩

/-- No address below the canonical form's lower bound is listed. -/
theorem readCells_below {lo hi k : Nat} (hk : k < lo) :
    ∀ {cs : List (Nat × Word)}, cellsWf lo hi cs = true → readCells cs k = unlistedWord
  | [], _ => rfl
  | (i, v) :: rest, h => by
    simp only [cellsWf, Bool.and_eq_true, decide_eq_true_eq] at h
    have hi : i ≠ k := by omega
    simp only [readCells, hi, if_false]
    exact readCells_below (lo := i + 1) (by omega) h.2

/-- A write leaves every other address alone, whatever the form of the list. -/
theorem readCells_writeCells_ne {k j : Nat} (v : Word) (hj : j ≠ k) :
    ∀ cs : List (Nat × Word), readCells (writeCells cs k v) j = readCells cs j
  | [] => by
    have hkj : k ≠ j := Ne.symm hj
    by_cases hv : v = unlistedWord <;> simp [writeCells, readCells, hv, hkj]
  | (i, u) :: rest => by
    have hkj : k ≠ j := Ne.symm hj
    have ih := readCells_writeCells_ne v hj rest
    by_cases h1 : k < i
    · by_cases hv : v = unlistedWord <;> simp [writeCells, readCells, h1, hv, hkj]
    · by_cases h2 : k = i
      · subst h2
        by_cases hv : v = unlistedWord <;> simp [writeCells, readCells, hv, hkj]
      · simp [writeCells, readCells, h1, h2, ih]

/-- A read after a write to the same address gives the word written. -/
theorem readCells_writeCells_self {lo hi k : Nat} (v : Word) :
    ∀ {cs : List (Nat × Word)}, cellsWf lo hi cs = true → readCells (writeCells cs k v) k = v
  | [], _ => by
    by_cases hv : v = unlistedWord <;> simp [writeCells, readCells, hv]
  | (i, u) :: rest, h => by
    simp only [cellsWf, Bool.and_eq_true, decide_eq_true_eq] at h
    have ih := readCells_writeCells_self (k := k) v h.2
    by_cases h1 : k < i
    · by_cases hv : v = unlistedWord
      · have hik : i ≠ k := by omega
        simp only [writeCells, h1, hv, if_true, readCells, hik, if_false]
        exact readCells_below (lo := i + 1) (by omega) h.2
      · simp [writeCells, readCells, h1, hv]
    · by_cases h2 : k = i
      · subst h2
        by_cases hv : v = unlistedWord
        · simp only [writeCells, lt_irrefl, if_false, if_true, hv]
          exact readCells_below (lo := k + 1) (by omega) h.2
        · simp [writeCells, readCells, hv]
      · have hik : i ≠ k := Ne.symm h2
        simp [writeCells, readCells, h1, h2, hik, ih]

/-- A write inside the range keeps the canonical form. -/
theorem cellsWf_writeCells {hi k : Nat} (v : Word) (hk : k < hi) :
    ∀ {lo : Nat} {cs : List (Nat × Word)}, lo ≤ k → cellsWf lo hi cs = true → cellsWf lo hi (writeCells cs k v) = true
  | lo, [], hlo, _ => by
    by_cases hv : v = unlistedWord
    · simp [writeCells, hv, cellsWf]
    · simp [writeCells, hv, cellsWf, hlo, hk]
  | lo, (i, u) :: rest, hlo, h => by
    have h' := h
    simp only [cellsWf, Bool.and_eq_true, decide_eq_true_eq] at h
    obtain ⟨⟨⟨h1, h2⟩, h3⟩, h4⟩ := h
    by_cases hlt : k < i
    · by_cases hv : v = unlistedWord
      · simpa [writeCells, hlt, hv] using h'
      · have hi1 : k + 1 ≤ i := hlt
        simp [writeCells, hlt, hv, cellsWf, hlo, hk, hi1, h2, h3, h4]
    · by_cases heq : k = i
      · subst heq
        by_cases hv : v = unlistedWord
        · simp only [writeCells, lt_irrefl, if_false, if_true, hv]
          exact cellsWf_mono (by omega) (le_refl _) h4
        · simp [writeCells, hv, cellsWf, h1, h2, h4]
      · have ih := cellsWf_writeCells v hk (lo := i + 1) (cs := rest) (by omega) h4
        simp [writeCells, hlt, heq, cellsWf, h1, h2, h3, ih]

/-- The cells of an image are in canonical form. -/
theorem cellsWf_cellsFrom : ∀ (k : Nat) (ws : List Word), cellsWf k (k + ws.length) (cellsFrom k ws) = true
  | _, [] => rfl
  | k, w :: ws => by
    have ih := cellsWf_cellsFrom (k + 1) ws
    have hlen : k + (w :: ws).length = k + 1 + ws.length := by simp; omega
    rw [hlen]
    by_cases hw : w = unlistedWord
    · simp only [cellsFrom, hw, if_true]
      exact cellsWf_mono (by omega) (le_refl _) ih
    · have hk : k < k + 1 + ws.length := by omega
      simp [cellsFrom, hw, cellsWf, hk, ih]

/-- An address of an image gives its word, and every other address the unlisted word. -/
theorem readCells_cellsFrom (j : Nat) :
    ∀ (k : Nat) (ws : List Word), readCells (cellsFrom k ws) (k + j) = ws.getD j unlistedWord
  | _, [] => by simp [cellsFrom, readCells]
  | k, w :: ws => by
    cases j with
    | zero =>
      by_cases hw : w = unlistedWord
      · simp only [cellsFrom, hw, if_true, Nat.add_zero, List.getD_cons_zero]
        exact readCells_below (lo := k + 1) (by omega) (cellsWf_cellsFrom (k + 1) ws)
      · simp [cellsFrom, hw, readCells]
    | succ j =>
      have ih := readCells_cellsFrom j (k + 1) ws
      have hne : k ≠ k + (j + 1) := by omega
      have heq : k + 1 + j = k + (j + 1) := by omega
      rw [heq] at ih
      by_cases hw : w = unlistedWord <;> simp [cellsFrom, hw, readCells, ih]

/-- The two parts of a well-formed memory. -/
theorem Memory.wf_iff (m : Memory) : m.wf = true ↔ m.size ≤ 32768 ∧ cellsWf 0 m.size m.cells = true := by
  simp [Memory.wf]

/-- Read after write, same address. -/
theorem Memory.read_write_self {m : Memory} (h : m.wf = true) (k : Nat) (v : Word) :
    (m.write k v).read k = v :=
  readCells_writeCells_self v ((Memory.wf_iff m).mp h).2

/-- Read after write, another address. -/
theorem Memory.read_write_ne (m : Memory) {j k : Nat} (v : Word) (h : j ≠ k) :
    (m.write k v).read j = m.read j :=
  readCells_writeCells_ne v h m.cells

/-- A write below P keeps the memory well formed. -/
theorem Memory.write_wf {m : Memory} (h : m.wf = true) {k : Nat} (v : Word) (hk : k < m.size) :
    (m.write k v).wf = true := by
  rw [Memory.wf_iff] at h ⊢
  exact ⟨h.1, cellsWf_writeCells v hk (Nat.zero_le _) h.2⟩

/-- A load of at most 32768 words gives a well-formed memory. -/
theorem Memory.ofWords_wf {ws : List Word} (h : ws.length ≤ 32768) : (Memory.ofWords ws).wf = true := by
  rw [Memory.wf_iff]
  have := cellsWf_cellsFrom 0 ws
  rw [Nat.zero_add] at this
  exact ⟨h, this⟩

/-- M[i] is the i-th loaded word (R38). -/
theorem Memory.ofWords_read (ws : List Word) (i : Nat) : (Memory.ofWords ws).read i = ws.getD i unlistedWord := by
  have := readCells_cellsFrom i 0 ws
  rwa [Nat.zero_add] at this

end Sys2Proof.Machine
end

