-- ==== Sys2Proof/Laws/State.lean ====
section
/-! SUPPORT. One lemma per field per update of State, so that no proof unfolds a record update. -/

namespace Sys2Proof.Machine

/-! ### setReg -/

@[simp] theorem State.setReg_cfg (s : State) (r : Fin 8) (v : Word) : (s.setReg r v).cfg = s.cfg := rfl
@[simp] theorem State.setReg_regs (s : State) (r : Fin 8) (v : Word) : (s.setReg r v).regs = s.regs.set r v := rfl
@[simp] theorem State.setReg_mem (s : State) (r : Fin 8) (v : Word) : (s.setReg r v).mem = s.mem := rfl
@[simp] theorem State.setReg_pc (s : State) (r : Fin 8) (v : Word) : (s.setReg r v).pc = s.pc := rfl
@[simp] theorem State.setReg_stack (s : State) (r : Fin 8) (v : Word) : (s.setReg r v).stack = s.stack := rfl
@[simp] theorem State.setReg_run (s : State) (r : Fin 8) (v : Word) : (s.setReg r v).run = s.run := rfl
@[simp] theorem State.setReg_waiting (s : State) (r : Fin 8) (v : Word) : (s.setReg r v).waiting = s.waiting := rfl
@[simp] theorem State.setReg_output (s : State) (r : Fin 8) (v : Word) : (s.setReg r v).output = s.output := rfl
@[simp] theorem State.setReg_input (s : State) (r : Fin 8) (v : Word) : (s.setReg r v).input = s.input := rfl
@[simp] theorem State.setReg_resetLine (s : State) (r : Fin 8) (v : Word) : (s.setReg r v).resetLine = s.resetLine := rfl

/-! ### setWord -/

@[simp] theorem State.setWord_cfg (s : State) (k : Nat) (v : Word) : (s.setWord k v).cfg = s.cfg := rfl
@[simp] theorem State.setWord_regs (s : State) (k : Nat) (v : Word) : (s.setWord k v).regs = s.regs := rfl
@[simp] theorem State.setWord_mem (s : State) (k : Nat) (v : Word) : (s.setWord k v).mem = s.mem.write k v := rfl
@[simp] theorem State.setWord_pc (s : State) (k : Nat) (v : Word) : (s.setWord k v).pc = s.pc := rfl
@[simp] theorem State.setWord_stack (s : State) (k : Nat) (v : Word) : (s.setWord k v).stack = s.stack := rfl
@[simp] theorem State.setWord_run (s : State) (k : Nat) (v : Word) : (s.setWord k v).run = s.run := rfl
@[simp] theorem State.setWord_waiting (s : State) (k : Nat) (v : Word) : (s.setWord k v).waiting = s.waiting := rfl
@[simp] theorem State.setWord_output (s : State) (k : Nat) (v : Word) : (s.setWord k v).output = s.output := rfl
@[simp] theorem State.setWord_input (s : State) (k : Nat) (v : Word) : (s.setWord k v).input = s.input := rfl
@[simp] theorem State.setWord_resetLine (s : State) (k : Nat) (v : Word) : (s.setWord k v).resetLine = s.resetLine := rfl

/-! ### emit -/

@[simp] theorem State.emit_cfg (s : State) (b : Byte) : (s.emit b).cfg = s.cfg := rfl
@[simp] theorem State.emit_regs (s : State) (b : Byte) : (s.emit b).regs = s.regs := rfl
@[simp] theorem State.emit_mem (s : State) (b : Byte) : (s.emit b).mem = s.mem := rfl
@[simp] theorem State.emit_pc (s : State) (b : Byte) : (s.emit b).pc = s.pc := rfl
@[simp] theorem State.emit_stack (s : State) (b : Byte) : (s.emit b).stack = s.stack := rfl
@[simp] theorem State.emit_run (s : State) (b : Byte) : (s.emit b).run = s.run := rfl
@[simp] theorem State.emit_waiting (s : State) (b : Byte) : (s.emit b).waiting = s.waiting := rfl
@[simp] theorem State.emit_output (s : State) (b : Byte) : (s.emit b).output = s.output ++ [b] := rfl
@[simp] theorem State.emit_input (s : State) (b : Byte) : (s.emit b).input = s.input := rfl
@[simp] theorem State.emit_resetLine (s : State) (b : Byte) : (s.emit b).resetLine = s.resetLine := rfl

/-! ### advance -/

@[simp] theorem State.advance_cfg (s : State) (len : Nat) : (s.advance len).cfg = s.cfg := rfl
@[simp] theorem State.advance_regs (s : State) (len : Nat) : (s.advance len).regs = s.regs := rfl
@[simp] theorem State.advance_mem (s : State) (len : Nat) : (s.advance len).mem = s.mem := rfl
@[simp] theorem State.advance_pc (s : State) (len : Nat) : (s.advance len).pc = s.pc + BitVec.ofNat 16 len := rfl
@[simp] theorem State.advance_stack (s : State) (len : Nat) : (s.advance len).stack = s.stack := rfl
@[simp] theorem State.advance_run (s : State) (len : Nat) : (s.advance len).run = s.run := rfl
@[simp] theorem State.advance_waiting (s : State) (len : Nat) : (s.advance len).waiting = s.waiting := rfl
@[simp] theorem State.advance_output (s : State) (len : Nat) : (s.advance len).output = s.output := rfl
@[simp] theorem State.advance_input (s : State) (len : Nat) : (s.advance len).input = s.input := rfl
@[simp] theorem State.advance_resetLine (s : State) (len : Nat) : (s.advance len).resetLine = s.resetLine := rfl

/-! ### jump -/

@[simp] theorem State.jump_cfg (s : State) (target : Word) : (s.jump target).cfg = s.cfg := rfl
@[simp] theorem State.jump_regs (s : State) (target : Word) : (s.jump target).regs = s.regs := rfl
@[simp] theorem State.jump_mem (s : State) (target : Word) : (s.jump target).mem = s.mem := rfl
@[simp] theorem State.jump_pc (s : State) (target : Word) : (s.jump target).pc = target := rfl
@[simp] theorem State.jump_stack (s : State) (target : Word) : (s.jump target).stack = s.stack := rfl
@[simp] theorem State.jump_run (s : State) (target : Word) : (s.jump target).run = s.run := rfl
@[simp] theorem State.jump_waiting (s : State) (target : Word) : (s.jump target).waiting = s.waiting := rfl
@[simp] theorem State.jump_output (s : State) (target : Word) : (s.jump target).output = s.output := rfl
@[simp] theorem State.jump_input (s : State) (target : Word) : (s.jump target).input = s.input := rfl
@[simp] theorem State.jump_resetLine (s : State) (target : Word) : (s.jump target).resetLine = s.resetLine := rfl

/-! ### halt -/

@[simp] theorem State.halt_cfg (s : State) (reason : HaltReason) : (s.halt reason).cfg = s.cfg := rfl
@[simp] theorem State.halt_regs (s : State) (reason : HaltReason) : (s.halt reason).regs = s.regs := rfl
@[simp] theorem State.halt_mem (s : State) (reason : HaltReason) : (s.halt reason).mem = s.mem := rfl
@[simp] theorem State.halt_pc (s : State) (reason : HaltReason) : (s.halt reason).pc = s.pc := rfl
@[simp] theorem State.halt_stack (s : State) (reason : HaltReason) : (s.halt reason).stack = s.stack := rfl
@[simp] theorem State.halt_run (s : State) (reason : HaltReason) : (s.halt reason).run = .halted reason := rfl
@[simp] theorem State.halt_waiting (s : State) (reason : HaltReason) : (s.halt reason).waiting = s.waiting := rfl
@[simp] theorem State.halt_output (s : State) (reason : HaltReason) : (s.halt reason).output = s.output := rfl
@[simp] theorem State.halt_input (s : State) (reason : HaltReason) : (s.halt reason).input = s.input := rfl
@[simp] theorem State.halt_resetLine (s : State) (reason : HaltReason) : (s.halt reason).resetLine = s.resetLine := rfl

/-! ### raise -/

@[simp] theorem State.raise_cfg (s : State) (kind : Fault) : (s.raise kind).cfg = s.cfg := rfl
@[simp] theorem State.raise_regs (s : State) (kind : Fault) : (s.raise kind).regs = s.regs := rfl
@[simp] theorem State.raise_mem (s : State) (kind : Fault) : (s.raise kind).mem = s.mem := rfl
@[simp] theorem State.raise_pc (s : State) (kind : Fault) : (s.raise kind).pc = s.pc := rfl
@[simp] theorem State.raise_stack (s : State) (kind : Fault) : (s.raise kind).stack = s.stack := rfl
@[simp] theorem State.raise_run (s : State) (kind : Fault) : (s.raise kind).run = .faulted kind := rfl
@[simp] theorem State.raise_waiting (s : State) (kind : Fault) : (s.raise kind).waiting = s.waiting := rfl
@[simp] theorem State.raise_output (s : State) (kind : Fault) : (s.raise kind).output = s.output := rfl
@[simp] theorem State.raise_input (s : State) (kind : Fault) : (s.raise kind).input = s.input := rfl
@[simp] theorem State.raise_resetLine (s : State) (kind : Fault) : (s.raise kind).resetLine = s.resetLine := rfl

/-! ### awaitByte -/

@[simp] theorem State.awaitByte_cfg (s : State) : s.awaitByte.cfg = s.cfg := rfl
@[simp] theorem State.awaitByte_regs (s : State) : s.awaitByte.regs = s.regs := rfl
@[simp] theorem State.awaitByte_mem (s : State) : s.awaitByte.mem = s.mem := rfl
@[simp] theorem State.awaitByte_pc (s : State) : s.awaitByte.pc = s.pc := rfl
@[simp] theorem State.awaitByte_stack (s : State) : s.awaitByte.stack = s.stack := rfl
@[simp] theorem State.awaitByte_run (s : State) : s.awaitByte.run = s.run := rfl
@[simp] theorem State.awaitByte_waiting (s : State) : s.awaitByte.waiting = true := rfl
@[simp] theorem State.awaitByte_output (s : State) : s.awaitByte.output = s.output := rfl
@[simp] theorem State.awaitByte_input (s : State) : s.awaitByte.input = s.input := rfl
@[simp] theorem State.awaitByte_resetLine (s : State) : s.awaitByte.resetLine = s.resetLine := rfl

/-! ### takeByte -/

@[simp] theorem State.takeByte_cfg (s : State) (rest : List Byte) : (s.takeByte rest).cfg = s.cfg := rfl
@[simp] theorem State.takeByte_regs (s : State) (rest : List Byte) : (s.takeByte rest).regs = s.regs := rfl
@[simp] theorem State.takeByte_mem (s : State) (rest : List Byte) : (s.takeByte rest).mem = s.mem := rfl
@[simp] theorem State.takeByte_pc (s : State) (rest : List Byte) : (s.takeByte rest).pc = s.pc := rfl
@[simp] theorem State.takeByte_stack (s : State) (rest : List Byte) : (s.takeByte rest).stack = s.stack := rfl
@[simp] theorem State.takeByte_run (s : State) (rest : List Byte) : (s.takeByte rest).run = s.run := rfl
@[simp] theorem State.takeByte_waiting (s : State) (rest : List Byte) : (s.takeByte rest).waiting = false := rfl
@[simp] theorem State.takeByte_output (s : State) (rest : List Byte) : (s.takeByte rest).output = s.output := rfl
@[simp] theorem State.takeByte_input (s : State) (rest : List Byte) : (s.takeByte rest).input = rest := rfl
@[simp] theorem State.takeByte_resetLine (s : State) (rest : List Byte) : (s.takeByte rest).resetLine = s.resetLine := rfl

/-! ### setSlot -/

@[simp] theorem State.setSlot_cfg (s : State) (slot : Slot) (v : Word) : (s.setSlot slot v).cfg = s.cfg := by
  cases slot <;> rfl
@[simp] theorem State.setSlot_pc (s : State) (slot : Slot) (v : Word) : (s.setSlot slot v).pc = s.pc := by
  cases slot <;> rfl
@[simp] theorem State.setSlot_stack (s : State) (slot : Slot) (v : Word) : (s.setSlot slot v).stack = s.stack := by
  cases slot <;> rfl
@[simp] theorem State.setSlot_run (s : State) (slot : Slot) (v : Word) : (s.setSlot slot v).run = s.run := by
  cases slot <;> rfl
@[simp] theorem State.setSlot_waiting (s : State) (slot : Slot) (v : Word) : (s.setSlot slot v).waiting = s.waiting := by
  cases slot <;> rfl
@[simp] theorem State.setSlot_output (s : State) (slot : Slot) (v : Word) : (s.setSlot slot v).output = s.output := by
  cases slot <;> rfl
@[simp] theorem State.setSlot_input (s : State) (slot : Slot) (v : Word) : (s.setSlot slot v).input = s.input := by
  cases slot <;> rfl
@[simp] theorem State.setSlot_resetLine (s : State) (slot : Slot) (v : Word) : (s.setSlot slot v).resetLine = s.resetLine := by
  cases slot <;> rfl

@[simp] theorem Memory.write_size (m : Memory) (k : Nat) (v : Word) : (m.write k v).size = m.size := rfl

@[simp] theorem State.setSlot_size (s : State) (slot : Slot) (v : Word) : (s.setSlot slot v).mem.size = s.mem.size := by
  cases slot <;> rfl

end Sys2Proof.Machine
end

