-- ==== Sys2Proof/Laws/Ops.lean ====
section
/-! SUPPORT. One spec lemma per shared operation: what it can answer. -/

namespace Sys2Proof.Machine

/-! ### Address decode -/

theorem rawSlot_program {size A : Nat} (h : A < size) : rawSlot size A = some (.program A) := by
  simp [rawSlot, h]

theorem rawSlot_register {size A : Nat} {r : Fin 8} (h : A = size + r.val) : rawSlot size A = some (.register r) := by
  have hr := r.isLt
  have h1 : ¬ A < size := by omega
  have h2 : size ≤ A ∧ A < size + 8 := by omega
  simp only [rawSlot, h1, if_false, h2, and_self, dite_true, Option.some.injEq, Slot.register.injEq, Fin.ext_iff]
  omega

theorem rawSlot_none {size A : Nat} (h : size + 8 ≤ A) : rawSlot size A = none := by
  have h1 : ¬ A < size := by omega
  have h2 : ¬ (size ≤ A ∧ A < size + 8) := by omega
  simp [rawSlot, h1, h2]

/-- A program slot is below P. -/
theorem rawSlot_program_lt {size A k : Nat} (h : rawSlot size A = some (.program k)) : k < size := by
  unfold rawSlot at h
  split at h
  · cases h; assumption
  · split at h <;> cases h

theorem writeSlot_program_lt {s : State} {A k : Nat} (h : s.writeSlot A = some (.program k)) : k < s.mem.size := by
  unfold State.writeSlot at h
  split at h
  · cases h
  · exact rawSlot_program_lt h

/-- A register's name 32768 + r is its write address, whatever P (R75). -/
theorem writeSlot_window (s : State) {A : Nat} {r : Fin 8} (h : A = 32768 + r.val) :
    s.writeSlot A = some (.register r) := by
  simp [State.writeSlot, regRef?_eq_some.mpr h]

/-- Outside 32768..32775 a write address is a raw slot (R75). -/
theorem writeSlot_raw (s : State) {A : Nat} (h : A < 32768 ∨ 32776 ≤ A) : s.writeSlot A = rawSlot s.mem.size A := by
  simp [State.writeSlot, regRef?_eq_none.mpr h]

theorem readSlot_congr {s t : State} (hc : t.cfg = s.cfg) (hm : t.mem.size = s.mem.size) (A : Nat) :
    t.readSlot A = s.readSlot A := by
  simp [State.readSlot, hc, hm]

theorem writeSlot_congr {s t : State} (hm : t.mem.size = s.mem.size) (A : Nat) : t.writeSlot A = s.writeSlot A := by
  simp [State.writeSlot, hm]

@[simp] theorem setSlot_readSlot (s : State) (slot : Slot) (v : Word) (A : Nat) :
    (s.setSlot slot v).readSlot A = s.readSlot A :=
  readSlot_congr (State.setSlot_cfg s slot v) (State.setSlot_size s slot v) A

/-! ### Slots -/

/-- A slot reads as what was written to it. -/
theorem getSlot_setSlot_self {s : State} (h : s.mem.wf = true) (slot : Slot) (v : Word) :
    (s.setSlot slot v).getSlot slot = v := by
  cases slot with
  | program k => exact Memory.read_write_self h k v
  | register r => simp [State.setSlot, State.getSlot, State.reg]

/-- A write leaves every other slot alone. -/
theorem getSlot_setSlot_ne (s : State) {slot other : Slot} (v : Word) (h : other ≠ slot) :
    (s.setSlot slot v).getSlot other = s.getSlot other := by
  cases slot with
  | program k =>
    cases other with
    | program j => exact Memory.read_write_ne s.mem v fun he => h (congrArg Slot.program he)
    | register q => rfl
  | register r =>
    cases other with
    | program j => rfl
    | register q =>
      have hrq : r.val ≠ q.val := fun he => h (congrArg Slot.register (Fin.ext he).symm)
      simp [State.setSlot, State.getSlot, State.reg, Vector.getElem_set_ne, hrq]

/-- A write to an address keeps program memory well formed. -/
theorem setSlot_mem_wf {s : State} (h : s.mem.wf = true) {A : Nat} {slot : Slot} (hw : s.writeSlot A = some slot)
    (v : Word) : (s.setSlot slot v).mem.wf = true := by
  cases slot with
  | program k => exact Memory.write_wf h v (writeSlot_program_lt hw)
  | register r => exact h

/-! ### The memory primitives -/

theorem rawRead_ok_iff {s : State} {A : Nat} {w : Word} :
    s.rawRead A = .ok w ↔ ∃ slot, s.readSlot A = some slot ∧ s.getSlot slot = w := by
  unfold State.rawRead
  cases h : s.readSlot A <;> simp

theorem rawRead_error_iff {s : State} {A : Nat} {kind : Fault} :
    s.rawRead A = .error kind ↔ s.readSlot A = none ∧ kind = .outOfBoundsAddress := by
  unfold State.rawRead
  cases h : s.readSlot A <;> simp [eq_comm]

theorem resolve_reg (s : State) {w : Word} {r : Fin 8} (h : w.toNat = 32768 + r.val) : s.resolve w = s.reg r := by
  simp [State.resolve, regRef?_eq_some.mpr h]

theorem resolve_self (s : State) {w : Word} (h : w.toNat < 32768 ∨ 32776 ≤ w.toNat) : s.resolve w = w := by
  simp [State.resolve, regRef?_eq_none.mpr h]

theorem memRead_ok_iff {s : State} {A : Nat} {v : Word} :
    s.memRead A = .ok v ↔ ∃ w, s.rawRead A = .ok w ∧ s.resolve w = v := by
  unfold State.memRead
  cases h : s.rawRead A <;> simp [Except.map]

theorem memRead_error_iff {s : State} {A : Nat} {kind : Fault} :
    s.memRead A = .error kind ↔ s.rawRead A = .error kind := by
  unfold State.memRead
  cases h : s.rawRead A <;> simp [Except.map]

theorem memWrite_ok_iff {s t : State} {A : Nat} {v : Word} :
    s.memWrite A v = .ok t ↔ ∃ slot, s.writeSlot A = some slot ∧ s.setSlot slot v = t := by
  unfold State.memWrite
  cases h : s.writeSlot A <;> simp

theorem store_of_slot {s : State} {A : Nat} {slot : Slot} (h : s.writeSlot A = some slot) (v : Word) (len : Nat) :
    s.store A v len = .ok ((s.setSlot slot v).advance len) := by
  simp [State.store, State.memWrite, h, Except.map]

/-- A slot write does not look at pc, so the fall-through is from the old pc. -/
theorem advance_setSlot (s : State) (slot : Slot) (v : Word) (len : Nat) :
    (s.setSlot slot v).advance len = { s.setSlot slot v with pc := s.pc + BitVec.ofNat 16 len } := by
  cases slot <;> rfl

theorem store_of_none {s : State} {A : Nat} (h : s.writeSlot A = none) (v : Word) (len : Nat) :
    s.store A v len = .error .outOfBoundsAddress := by
  simp [State.store, State.memWrite, h, Except.map]

theorem store_ok_iff {s t : State} {A : Nat} {v : Word} {len : Nat} :
    s.store A v len = .ok t ↔ ∃ slot, s.writeSlot A = some slot ∧ t = (s.setSlot slot v).advance len := by
  cases h : s.writeSlot A with
  | none => simp [store_of_none h]
  | some slot => simp [store_of_slot h, eq_comm]

/-! ### The stack -/

theorem stackFull_eq_false_iff {s : State} :
    s.stackFull = false ↔ ∀ n, s.cfg.stackCapacity = some n → s.stack.length < n := by
  unfold State.stackFull
  cases h : s.cfg.stackCapacity <;> simp

theorem stackFull_eq_true_iff {s : State} :
    s.stackFull = true ↔ ∃ n, s.cfg.stackCapacity = some n ∧ n ≤ s.stack.length := by
  unfold State.stackFull
  cases h : s.cfg.stackCapacity <;> simp

theorem push_of_room {s : State} (h : s.stackFull = false) (v : Word) :
    s.push v = .ok { s with stack := v :: s.stack } := by
  simp [State.push, h]

theorem push_of_full {s : State} (h : s.stackFull = true) (v : Word) : s.push v = .error .stackOverflow := by
  simp [State.push, h]

theorem pop_of_empty {s : State} (h : s.stack = []) : s.pop = .error .emptyStackPop := by
  simp [State.pop, h]

theorem pop_of_cons {s : State} {v : Word} {rest : List Word} (h : s.stack = v :: rest) :
    s.pop = .ok (v, { s with stack := rest }) := by
  simp [State.pop, h]

/-! ### Completing a step -/

@[simp] theorem commit_ok (s t : State) : s.commit (.ok t) = .next t := rfl

@[simp] theorem commit_error (s : State) (kind : Fault) : s.commit (.error kind) = .next (s.raise kind) := rfl

/-- A committed step is the effect, or the fault taken in the state at its start (R222). -/
theorem commit_next_iff {s t : State} {r : Except Fault State} :
    s.commit r = .next t ↔ r = .ok t ∨ ∃ kind, r = .error kind ∧ t = s.raise kind := by
  cases r <;> simp [eq_comm]

end Sys2Proof.Machine
end

