-- ==== Sys2Proof/Laws/Exec.lean ====
section
/-! SUPPORT. What executing an instruction can do, said once: every next state of every instruction is one of
the effects below. -/

namespace Sys2Proof.Machine

/-- The address an instruction writes to: its destination word (R103), or WMEM's computed address (R191). -/
def storeAddress (s : State) : Instr → Option Nat
  | .set a _ | .pop a | .eq a _ _ | .gt a _ _ | .add a _ _ | .mult a _ _ | .mod a _ _ | .and a _ _ | .or a _ _
  | .not a _ | .rmem a _ | .inp a => some (dest a)
  | .wmem a _ => some (s.value a).toNat
  | .halt | .push _ | .jmp _ | .jt _ _ | .jf _ _ | .call _ | .ret | .out _ | .noop => none

/-- The effects of an executed instruction on a state. -/
inductive Effect (s : State) : Instr → State → Prop
  /-- A fault is taken. -/
  | faulted (i : Instr) (kind : Fault) : Effect s i (s.raise kind)
  /-- HALT, or RET on an empty stack. -/
  | stopped (i : Instr) (reason : HaltReason)
      (hi : (i = .halt ∧ reason = .haltInstruction) ∨ (i = .ret ∧ s.stack = [] ∧ reason = .returnEmpty)) :
      Effect s i (s.halt reason)
  /-- IN waits. -/
  | waited (a : Operand) (hin : s.input = []) (hslot : (s.writeSlot (dest a)).isSome) : Effect s (.inp a) s.awaitByte
  /-- A result is written and the instruction falls through. -/
  | stored (i : Instr) (A : Nat) (slot : Slot) (v : Word) (hA : storeAddress s i = some A)
      (hslot : s.writeSlot A = some slot) (hpop : ∀ a, i ≠ .pop a) (hinp : ∀ a, i ≠ .inp a) :
      Effect s i ((s.setSlot slot v).advance (encode i).length)
  /-- POP. -/
  | popped (a : Operand) (slot : Slot) (v : Word) (rest : List Word) (hst : s.stack = v :: rest)
      (hslot : s.writeSlot (dest a) = some slot) :
      Effect s (.pop a) ((({ s with stack := rest } : State).setSlot slot v).advance 2)
  /-- IN with a byte. -/
  | taken (a : Operand) (slot : Slot) (b : Byte) (rest : List Byte) (hin : s.input = b :: rest)
      (hslot : s.writeSlot (dest a) = some slot) :
      Effect s (.inp a) (((s.takeByte rest).setSlot slot (b.setWidth 16)).advance 2)
  /-- PUSH. -/
  | pushed (a : Operand) (hroom : s.stackFull = false) :
      Effect s (.push a) (({ s with stack := s.value a :: s.stack } : State).advance 2)
  /-- CALL. -/
  | called (a : Operand) (hroom : s.stackFull = false) :
      Effect s (.call a) (({ s with stack := (s.pc + 2) :: s.stack } : State).jump (s.value a))
  /-- RET. -/
  | returned (v : Word) (rest : List Word) (hst : s.stack = v :: rest) :
      Effect s .ret (({ s with stack := rest } : State).jump v)
  /-- OUT. -/
  | emitted (a : Operand) : Effect s (.out a) ((s.emit ((s.value a).setWidth 8)).advance 2)
  /-- A taken jump. -/
  | jumped (i : Instr) (a : Operand)
      (hi : i = .jmp a ∨ ∃ c, (i = .jt c a ∧ s.value c ≠ 0) ∨ (i = .jf c a ∧ s.value c = 0)) :
      Effect s i (s.jump (s.value a))
  /-- NOOP, or a jump not taken. -/
  | fellThrough (i : Instr)
      (hi : i = .noop ∨ ∃ c a, (i = .jt c a ∧ s.value c = 0) ∨ (i = .jf c a ∧ s.value c ≠ 0)) :
      Effect s i (s.advance (encode i).length)

theorem isNonzero_iff {w : Word} : isNonzero w = true ↔ w ≠ 0 := by simp [isNonzero]

/-- A committed store is an effect. -/
theorem effect_of_store {s t : State} {i : Instr} {A : Nat} {v : Word} {len : Nat} (hA : storeAddress s i = some A)
    (hlen : len = (encode i).length) (hpop : ∀ a, i ≠ .pop a) (hinp : ∀ a, i ≠ .inp a)
    (h : s.commit (s.store A v len) = .next t) : Effect s i t := by
  subst hlen
  rcases commit_next_iff.mp h with h | ⟨kind, -, rfl⟩
  · obtain ⟨slot, hs, rfl⟩ := store_ok_iff.mp h
    exact .stored i A slot v hA hs hpop hinp
  · exact .faulted i kind

/-- WHAT A STEP CAN DO: every next state of `exec` is one of the effects. -/
theorem exec_effect {i : Instr} {s t : State} (h : exec i s = .next t) : Effect s i t := by
  cases i with
  | halt => simp only [exec, execHalt, Host.Outcome.next.injEq] at h; subst h; exact .stopped _ _ (Or.inl ⟨rfl, rfl⟩)
  | set a b => exact effect_of_store rfl rfl (by simp) (by simp) h
  | push a =>
    simp only [exec, execPush] at h
    cases hf : s.stackFull with
    | true =>
      simp only [push_of_full hf, Except.map, commit_error, Host.Outcome.next.injEq] at h
      subst h; exact .faulted _ _
    | false =>
      simp only [push_of_room hf, Except.map, commit_ok, Host.Outcome.next.injEq] at h
      subst h; exact .pushed a hf
  | pop a =>
    simp only [exec, execPop] at h
    cases hst : s.stack with
    | nil =>
      simp only [pop_of_empty hst, commit_error, Host.Outcome.next.injEq] at h
      subst h; exact .faulted _ _
    | cons v rest =>
      simp only [pop_of_cons hst] at h
      rcases commit_next_iff.mp h with h | ⟨kind, -, rfl⟩
      · obtain ⟨slot, hs, rfl⟩ := store_ok_iff.mp h
        exact .popped a slot v rest hst hs
      · exact .faulted _ kind
  | eq a b c => exact effect_of_store rfl rfl (by simp) (by simp) h
  | gt a b c => exact effect_of_store rfl rfl (by simp) (by simp) h
  | jmp a => simp only [exec, execJmp, Host.Outcome.next.injEq] at h; subst h; exact .jumped _ a (Or.inl rfl)
  | jt a b =>
    simp only [exec, execJt, Host.Outcome.next.injEq] at h; subst h
    split
    · rename_i hv; exact .jumped _ b (Or.inr ⟨a, Or.inl ⟨rfl, isNonzero_iff.mp hv⟩⟩)
    · rename_i hv; exact .fellThrough (.jt a b) (Or.inr ⟨a, b, Or.inl ⟨rfl, by simpa [isNonzero] using hv⟩⟩)
  | jf a b =>
    simp only [exec, execJf, Host.Outcome.next.injEq] at h; subst h
    split
    · rename_i hv; exact .fellThrough (.jf a b) (Or.inr ⟨a, b, Or.inr ⟨rfl, isNonzero_iff.mp hv⟩⟩)
    · rename_i hv; exact .jumped _ b (Or.inr ⟨a, Or.inr ⟨rfl, by simpa [isNonzero] using hv⟩⟩)
  | add a b c => exact effect_of_store rfl rfl (by simp) (by simp) h
  | mult a b c => exact effect_of_store rfl rfl (by simp) (by simp) h
  | mod a b c =>
    simp only [exec, execMod] at h
    split at h
    · simp only [commit_error, Host.Outcome.next.injEq] at h; subst h; exact .faulted _ _
    · exact effect_of_store (i := .mod a b c) rfl rfl (by simp) (by simp) h
  | and a b c => exact effect_of_store rfl rfl (by simp) (by simp) h
  | or a b c => exact effect_of_store rfl rfl (by simp) (by simp) h
  | not a b => exact effect_of_store rfl rfl (by simp) (by simp) h
  | rmem a b =>
    simp only [exec, execRmem] at h
    split at h
    · simp only [commit_error, Host.Outcome.next.injEq] at h; subst h; exact .faulted _ _
    · exact effect_of_store (i := .rmem a b) rfl rfl (by simp) (by simp) h
  | wmem a b => exact effect_of_store (i := .wmem a b) rfl rfl (by simp) (by simp) h
  | call a =>
    simp only [exec, execCall] at h
    cases hf : s.stackFull with
    | true =>
      simp only [push_of_full hf, Except.map, commit_error, Host.Outcome.next.injEq] at h
      subst h; exact .faulted _ _
    | false =>
      simp only [push_of_room hf, Except.map, commit_ok, Host.Outcome.next.injEq] at h
      subst h; exact .called a hf
  | ret =>
    simp only [exec, execRet] at h
    cases hst : s.stack with
    | nil =>
      simp only [hst, List.isEmpty_nil, if_true, Host.Outcome.next.injEq] at h
      subst h; exact .stopped _ _ (Or.inr ⟨rfl, hst, rfl⟩)
    | cons v rest =>
      simp only [hst, List.isEmpty_cons, Bool.false_eq_true, if_false, pop_of_cons hst, Except.map, commit_ok,
        Host.Outcome.next.injEq] at h
      subst h; exact .returned v rest hst
  | out a => simp only [exec, execOut, Host.Outcome.next.injEq] at h; subst h; exact .emitted a
  | inp a =>
    simp only [exec, execInp] at h
    cases hs : s.writeSlot (dest a) with
    | none => simp only [hs, Host.Outcome.next.injEq] at h; subst h; exact .faulted _ _
    | some slot =>
      cases hin : s.input with
      | nil =>
        simp only [hs, hin, Host.Outcome.next.injEq] at h
        subst h; exact .waited a hin (by simp [hs])
      | cons b rest =>
        simp only [hs, hin, Host.Outcome.next.injEq] at h
        subst h; exact .taken a slot b rest hin hs
  | noop => simp only [exec, execNoop, Host.Outcome.next.injEq] at h; subst h; exact .fellThrough .noop (Or.inl rfl)

/-- The dispatch answers a next state for every instruction in every state. -/
theorem exec_next_exists (i : Instr) (s : State) : ∃ t, exec i s = .next t := by
  have hc : ∀ r : Except Fault State, ∃ t, s.commit r = .next t := fun r => by cases r <;> exact ⟨_, rfl⟩
  cases i with
  | halt => exact ⟨_, rfl⟩
  | jmp a => exact ⟨_, rfl⟩
  | jt a b => exact ⟨_, rfl⟩
  | jf a b => exact ⟨_, rfl⟩
  | out a => exact ⟨_, rfl⟩
  | noop => exact ⟨_, rfl⟩
  | ret =>
    simp only [exec, execRet]
    split
    · exact ⟨_, rfl⟩
    · exact hc _
  | inp a =>
    simp only [exec, execInp]
    split
    · exact ⟨_, rfl⟩
    · split <;> exact ⟨_, rfl⟩
  | set a b => exact hc _
  | push a => exact hc _
  | pop a => exact hc _
  | eq a b c => exact hc _
  | gt a b c => exact hc _
  | add a b c => exact hc _
  | mult a b c => exact hc _
  | mod a b c => exact hc _
  | and a b c => exact hc _
  | or a b c => exact hc _
  | not a b => exact hc _
  | rmem a b => exact hc _
  | wmem a b => exact hc _
  | call a => exact hc _

end Sys2Proof.Machine
end

