-- ==== Sys2Proof/Laws/Fetch.lean ====
section
/-! SUPPORT. The instruction fetch: what it reads, what it gives, and that it never faults on an address
(spec/40_cycle_and_control.md R122, R123). -/

namespace Sys2Proof.Machine

/-- Consecutive raw reads give exactly the words that stand there. -/
theorem rawReads_ok_iff {s : State} :
    ∀ {n A : Nat} {ws : List Word}, s.rawReads A n = .ok ws ↔
      ws.length = n ∧ ∀ k (h : k < ws.length), s.rawRead (A + k) = .ok ws[k]
  | 0, A, ws => by
    cases ws <;> simp [State.rawReads]
  | n + 1, A, ws => by
    cases ws with
    | nil =>
      simp only [State.rawReads, List.length_nil]
      constructor
      · intro h; split at h
        · cases h
        · split at h <;> cases h
      · rintro ⟨h, _⟩; cases h
    | cons w ws =>
      have ih := rawReads_ok_iff (s := s) (n := n) (A := A + 1) (ws := ws)
      constructor
      · intro h
        simp only [State.rawReads] at h
        split at h
        · cases h
        · rename_i w' hw
          split at h
          · cases h
          · rename_i ws' hws
            cases h
            obtain ⟨hl, hk⟩ := ih.mp hws
            refine ⟨by simp [hl], fun k hkl => ?_⟩
            cases k with
            | zero => simpa using hw
            | succ k =>
              have := hk k (by simpa using hkl)
              rw [show A + (k + 1) = A + 1 + k by omega]
              simpa using this
      · rintro ⟨hl, hk⟩
        have h0 := hk 0 (by simp)
        have hws : s.rawReads (A + 1) n = .ok ws := ih.mpr ⟨by simpa using hl, fun k hkl => by
          have := hk (k + 1) (by simpa using hkl)
          rw [show A + (k + 1) = A + 1 + k by omega] at this
          simpa using this⟩
        simp only [Nat.add_zero, List.getElem_cons_zero] at h0
        simp [State.rawReads, h0, hws]

/-- An address up to seven past a pc below P has a slot (R123). -/
theorem rawSlot_isSome {size A : Nat} (h : A < size + 8) : ∃ slot, rawSlot size A = some slot := by
  by_cases h1 : A < size
  · exact ⟨_, rawSlot_program h1⟩
  · exact ⟨_, rawSlot_register (r := ⟨A - size, by omega⟩) (by simp; omega)⟩

theorem readSlot_isSome {s : State} {A : Nat} (h : A < s.mem.size + 8) : ∃ slot, s.readSlot A = some slot := by
  unfold State.readSlot
  split
  · exact rawSlot_isSome h
  · split
    · exact ⟨_, rfl⟩
    · exact rawSlot_isSome h

theorem rawRead_isOk {s : State} {A : Nat} (h : A < s.mem.size + 8) : ∃ w, s.rawRead A = .ok w := by
  obtain ⟨slot, hs⟩ := readSlot_isSome h
  exact ⟨_, rawRead_ok_iff.mpr ⟨slot, hs, rfl⟩⟩

theorem rawReads_isOk {s : State} : ∀ {n A : Nat}, A + n ≤ s.mem.size + 8 → ∃ ws, s.rawReads A n = .ok ws
  | 0, _, _ => ⟨[], rfl⟩
  | n + 1, A, h => by
    obtain ⟨w, hw⟩ := rawRead_isOk (s := s) (A := A) (by omega)
    obtain ⟨ws, hws⟩ := rawReads_isOk (s := s) (n := n) (A := A + 1) (by omega)
    exact ⟨w :: ws, by simp [State.rawReads, hw, hws]⟩

theorem operandCount_le (w : Word) : operandCount w ≤ 3 := by
  unfold operandCount
  split
  · rename_i o _; cases o <;> decide
  · omega

/-- Fetching below P: the opcode word decides, and with an opcode up to 21 the fetch gives its instruction. -/
theorem fetch_of_opcode {s : State} {op : Word} {o : Opcode} {ws : List Word}
    (hop : s.memRead s.pc.toNat = .ok op) (ho : Opcode.ofNat? op.toNat = some o)
    (hws : s.rawReads (s.pc.toNat + 1) (operandCount op) = .ok ws) :
    s.fetch = .ok (o.assemble (operandAt ws 0) (operandAt ws 1) (operandAt ws 2)) := by
  have hl := (rawReads_ok_iff.mp hws).1
  simp [State.fetch, hop, hws, decode_exact ho hl]

/-- An opcode word of 22 or more is OUT_OF_RANGE_OPCODE (R107). -/
theorem fetch_of_unknown {s : State} {op : Word} (hop : s.memRead s.pc.toNat = .ok op) (h : 22 ≤ op.toNat) :
    s.fetch = .error .outOfRangeOpcode := by
  have ho := Opcode.ofNat?_eq_none.mpr h
  have hc : operandCount op = 0 := by simp [operandCount, ho]
  simp [State.fetch, hop, hc, State.rawReads, decode, ho]

/-- Below P the fetch gives an instruction or faults on the opcode (R123). -/
theorem fetch_cases {s : State} (h : s.pc.toNat < s.mem.size) :
    (∃ i, s.fetch = .ok i) ∨ s.fetch = .error .outOfRangeOpcode := by
  obtain ⟨w, hw⟩ := rawRead_isOk (s := s) (A := s.pc.toNat) (by omega)
  have hop : s.memRead s.pc.toNat = .ok (s.resolve w) := memRead_ok_iff.mpr ⟨w, hw, rfl⟩
  by_cases h21 : (s.resolve w).toNat ≤ 21
  · obtain ⟨o, ho⟩ := Option.isSome_iff_exists.mp (Opcode.ofNat?_isSome.mpr h21)
    have hc := operandCount_le (s.resolve w)
    obtain ⟨ws, hws⟩ := rawReads_isOk (s := s) (n := operandCount (s.resolve w)) (A := s.pc.toNat + 1) (by omega)
    exact Or.inl ⟨_, fetch_of_opcode hop ho hws⟩
  · exact Or.inr (fetch_of_unknown hop (by omega))

/-- The fetch looks at the configuration, the registers, program memory and pc only. -/
theorem fetch_congr {s t : State} (hc : t.cfg = s.cfg) (hr : t.regs = s.regs) (hm : t.mem = s.mem) (hp : t.pc = s.pc) :
    t.fetch = s.fetch := by
  have hread : ∀ A, t.rawRead A = s.rawRead A := fun A => by
    unfold State.rawRead
    rw [readSlot_congr hc (by rw [hm])]
    cases s.readSlot A with
    | none => rfl
    | some slot => cases slot <;> simp [State.getSlot, State.reg, hr, hm]
  have hreads : ∀ n A, t.rawReads A n = s.rawReads A n := by
    intro n
    induction n with
    | zero => intro A; rfl
    | succ n ih => intro A; simp [State.rawReads, hread, ih]
  have hres : t.resolve = s.resolve := by funext w; simp [State.resolve, State.reg, hr]
  simp [State.fetch, State.memRead, hread, hreads, hres, hp]

/-- Every fetched instruction is well formed. -/
theorem assemble_wf (o : Opcode) (ws : List Word) :
    (o.assemble (operandAt ws 0) (operandAt ws 1) (operandAt ws 2)).wf = true := by
  cases o <;> simp [Opcode.assemble, Instr.wf, Instr.operands, operandAt, Operand.wf_ofWord]

end Sys2Proof.Machine
end

