-- ==== Sys2Proof/Laws/PerInstr.lean ====
section
/-! SUPPORT. One family of statements per instruction: the encoding is the opcode word of the instruction's
row followed by the words of its operands (spec/30_encoding.md R100, R105). -/

namespace Sys2Proof.Laws.EncodeShape

/-- The encoding is an opcode word that names a row, with as many operand words as the row's format has. -/
def Statement (i : Instr) : Prop :=
  ∃ (w : Word) (o : Opcode), encode i = w :: i.operands.map Operand.word ∧ Opcode.ofNat? w.toNat = some o ∧
    i.operands.length = o.format.operandCount

theorem halt : Statement .halt := ⟨0, .halt, rfl, rfl, rfl⟩
theorem set (a b : Operand) : Statement (.set a b) := ⟨1, .set, rfl, rfl, rfl⟩
theorem push (a : Operand) : Statement (.push a) := ⟨2, .push, rfl, rfl, rfl⟩
theorem pop (a : Operand) : Statement (.pop a) := ⟨3, .pop, rfl, rfl, rfl⟩
theorem eq (a b c : Operand) : Statement (.eq a b c) := ⟨4, .eq, rfl, rfl, rfl⟩
theorem gt (a b c : Operand) : Statement (.gt a b c) := ⟨5, .gt, rfl, rfl, rfl⟩
theorem jmp (a : Operand) : Statement (.jmp a) := ⟨6, .jmp, rfl, rfl, rfl⟩
theorem jt (a b : Operand) : Statement (.jt a b) := ⟨7, .jt, rfl, rfl, rfl⟩
theorem jf (a b : Operand) : Statement (.jf a b) := ⟨8, .jf, rfl, rfl, rfl⟩
theorem add (a b c : Operand) : Statement (.add a b c) := ⟨9, .add, rfl, rfl, rfl⟩
theorem mult (a b c : Operand) : Statement (.mult a b c) := ⟨10, .mult, rfl, rfl, rfl⟩
theorem mod (a b c : Operand) : Statement (.mod a b c) := ⟨11, .mod, rfl, rfl, rfl⟩
theorem and (a b c : Operand) : Statement (.and a b c) := ⟨12, .and, rfl, rfl, rfl⟩
theorem or (a b c : Operand) : Statement (.or a b c) := ⟨13, .or, rfl, rfl, rfl⟩
theorem not (a b : Operand) : Statement (.not a b) := ⟨14, .not, rfl, rfl, rfl⟩
theorem rmem (a b : Operand) : Statement (.rmem a b) := ⟨15, .rmem, rfl, rfl, rfl⟩
theorem wmem (a b : Operand) : Statement (.wmem a b) := ⟨16, .wmem, rfl, rfl, rfl⟩
theorem call (a : Operand) : Statement (.call a) := ⟨17, .call, rfl, rfl, rfl⟩
theorem ret : Statement .ret := ⟨18, .ret, rfl, rfl, rfl⟩
theorem out (a : Operand) : Statement (.out a) := ⟨19, .out, rfl, rfl, rfl⟩
theorem inp (a : Operand) : Statement (.inp a) := ⟨20, .inp, rfl, rfl, rfl⟩
theorem noop : Statement .noop := ⟨21, .noop, rfl, rfl, rfl⟩

end Sys2Proof.Laws.EncodeShape
end

