-- ==== Sys2Proof/Laws/Step.lean ====
section
/-! SUPPORT. What a step is, case by case, and runs one step at a time. -/

namespace Sys2Proof.Machine

/-- A fetching step is the fetched instruction's meaning, or the fetch's fault (R122). -/
theorem step_of_fetching {s : State} (h : s.Fetching) :
    step s = match s.fetch with
      | .error kind => .next (s.raise kind)
      | .ok i => exec i s := by
  obtain ⟨h1, h2, h3⟩ := h
  have h4 : ¬ s.mem.size ≤ s.pc.toNat := by omega
  cases hf : s.fetch <;> simp only [step, h1, h2, h4, if_false, hf]

/-- WHAT A STEP CAN DO: stay (in reset, halted or faulted), halt at the end of the program, fault on the
opcode, or execute the fetched instruction. -/
theorem step_cases {s t : State} (h : step s = .next t) :
    (t = s ∧ (s.resetLine ≠ .released ∨ s.run ≠ .running)) ∨
    (s.run = .running ∧ s.mem.size ≤ s.pc.toNat ∧ t = s.halt .endOfProgram) ∨
    (s.Fetching ∧ s.fetch = .error .outOfRangeOpcode ∧ t = s.raise .outOfRangeOpcode) ∨
    (s.Fetching ∧ ∃ i, s.fetch = .ok i ∧ exec i s = .next t) := by
  unfold step at h
  split at h
  · rename_i hr; cases h; exact Or.inl ⟨rfl, Or.inl (by simp [hr])⟩
  · rename_i hr; cases h; exact Or.inl ⟨rfl, Or.inr (by simp [hr])⟩
  · rename_i hr; cases h; exact Or.inl ⟨rfl, Or.inr (by simp [hr])⟩
  · rename_i h1 h2
    split at h
    · cases h; exact Or.inr (Or.inl ⟨h2, ‹_›, rfl⟩)
    · have hf : s.Fetching := ⟨h1, h2, by omega⟩
      rcases fetch_cases hf.2.2 with ⟨i, hi⟩ | hi
      · rw [hi] at h; exact Or.inr (Or.inr (Or.inr ⟨hf, i, hi, h⟩))
      · rw [hi] at h; cases h; exact Or.inr (Or.inr (Or.inl ⟨hf, hi, rfl⟩))

/-- A run of k + 1 steps is a step and then a run of k. -/
theorem run_succ {s t : State} (k : Nat) (h : step s = .next t) :
    Host.Core.run Sys2Proof.core (k + 1) s = Host.Core.run Sys2Proof.core k t := by
  have h' : Sys2Proof.core.step s = .next t := h
  simp only [Host.Core.run, h']

end Sys2Proof.Machine
end

