-- ==== Sys2Proof/Laws/Safety.lean ====
section
/-! SUPPORT. The parts of the invariant as propositions. -/

namespace Sys2Proof.Machine

theorem stackFits_iff (s : State) : s.stackFits = true ↔ ∀ n, s.cfg.stackCapacity = some n → s.stack.length ≤ n := by
  unfold State.stackFits
  cases s.cfg.stackCapacity <;> simp

/-- A wait is an IN's, with its destination checked and no byte offered (R213). -/
theorem waitJustified_iff (s : State) :
    s.waitJustified = true ↔
      (s.waiting = true → s.run = .running ∧ s.pc.toNat < s.mem.size ∧ s.input = [] ∧
        ∃ a, s.fetch = .ok (.inp a) ∧ (s.writeSlot (dest a)).isSome = true) := by
  unfold State.waitJustified
  cases s.waiting
  · simp
  · simp only [if_true, Bool.and_eq_true, decide_eq_true_eq, List.isEmpty_iff, true_implies, and_assoc]
    refine and_congr_right fun _ => and_congr_right fun _ => and_congr_right fun _ => ?_
    constructor
    · intro h
      split at h
      · rename_i a ha; exact ⟨a, ha, h⟩
      · cases h
    · rintro ⟨a, ha, h⟩
      simpa [ha] using h

/-- A state that does not wait has its waiting bit justified. -/
theorem waitJustified_of_not_waiting {s : State} (h : s.waiting = false) : s.waitJustified = true := by
  simp [waitJustified_iff, h]

end Sys2Proof.Machine
end

