-- ==== Sys2Proof/Tests/Slice0.lean ====
section
/-! SUPPORT. The model's own tests: ill-formed terms, words written out from the spec's encodings, one step of
each instruction against spec/95_test_vectors.md, and for each statement a state that meets its hypotheses. -/

namespace Sys2Proof.Tests

open Sys2Proof.Machine

/-- The state at the release of reset with an image. -/
def load (ws : List Word) : State := State.construct Config.spec ws []

/-- An image of P words, its first words given and the others 0 (the convention of spec/95_test_vectors.md). -/
def image (P : Nat) (ws : List Word) : State := load (ws ++ List.replicate (P - ws.length) 0)

/-- Register r holding v. -/
def withReg (r : Fin 8) (v : Word) (s : State) : State := s.setReg r v

/-- A property of the state a step answers. -/
def after (s : State) (p : State → Bool) : Bool :=
  match step s with
  | .next t => p t
  | .fault _ => false
  | .refused _ => false

/-! ### Ill-formed terms (R102) -/

theorem test_wf_refuses_register_word_as_invalid : (Instr.push (.invalid 32775)).wf = false := by decide
theorem test_wf_refuses_literal_word_as_invalid : (Instr.add (.reg 0) (.literal 1) (.invalid 5)).wf = false := by decide
theorem test_wf_accepts_first_invalid_word : (Instr.set (.invalid 32776) (.reg 7)).wf = true := by decide

/-! ### Words written out from the encoding lines of files 40 to 47 -/

theorem test_decode_halt : decode [0] = .ok (.halt, []) := by decide
theorem test_decode_set : decode [1, 32768, 65] = .ok (.set (.reg 0) (.literal 65), []) := by decide
theorem test_decode_push : decode [2, 32771] = .ok (.push (.reg 3), []) := by decide
theorem test_decode_pop : decode [3, 32770] = .ok (.pop (.reg 2), []) := by decide
theorem test_decode_eq : decode [4, 32768, 3, 4] = .ok (.eq (.reg 0) (.literal 3) (.literal 4), []) := by decide
theorem test_decode_gt : decode [5, 32768, 40000, 32767] = .ok (.gt (.reg 0) (.invalid 40000) (.literal 32767), []) := by decide
theorem test_decode_jmp : decode [6, 32769] = .ok (.jmp (.reg 1), []) := by decide
theorem test_decode_jt : decode [7, 1, 20] = .ok (.jt (.literal 1) (.literal 20), []) := by decide
theorem test_decode_jf : decode [8, 0, 20] = .ok (.jf (.literal 0) (.literal 20), []) := by decide
theorem test_decode_add : decode [9, 32768, 32758, 15] = .ok (.add (.reg 0) (.literal 32758) (.literal 15), []) := by decide
theorem test_decode_mult : decode [10, 32768, 300, 200] = .ok (.mult (.reg 0) (.literal 300) (.literal 200), []) := by decide
theorem test_decode_mod : decode [11, 32768, 17, 5] = .ok (.mod (.reg 0) (.literal 17) (.literal 5), []) := by decide
theorem test_decode_and : decode [12, 32768, 32769, 32770] = .ok (.and (.reg 0) (.reg 1) (.reg 2), []) := by decide
theorem test_decode_or : decode [13, 32768, 12, 10] = .ok (.or (.reg 0) (.literal 12) (.literal 10), []) := by decide
theorem test_decode_not : decode [14, 32768, 0] = .ok (.not (.reg 0) (.literal 0), []) := by decide
theorem test_decode_rmem : decode [15, 32768, 50] = .ok (.rmem (.reg 0) (.literal 50), []) := by decide
theorem test_decode_wmem : decode [16, 32768, 99] = .ok (.wmem (.reg 0) (.literal 99), []) := by decide
theorem test_decode_call : decode [17, 100] = .ok (.call (.literal 100), []) := by decide
theorem test_decode_ret : decode [18] = .ok (.ret, []) := by decide
theorem test_decode_out : decode [19, 65] = .ok (.out (.literal 65), []) := by decide
theorem test_decode_in : decode [20, 32768] = .ok (.inp (.reg 0), []) := by decide
theorem test_decode_noop : decode [21] = .ok (.noop, []) := by decide
theorem test_decode_unknown : decode [22] = .error (.opcodeOutOfRange 22) := by decide
theorem test_decode_missing : decode [9, 32768, 1] = .error (.operandsMissing 9) := by decide
theorem test_table_word : decodeTableWord 48 0x0041_8000_0001 = some (.set (.reg 0) (.literal 65)) := by decide
theorem test_fetch_word : after (State.reset.withFetchWord 48 0x0041_8000_0001) (fun t => t.reg 0 == 65 && t.pc == 3) = true := by decide

/-! ### One step against the vectors of spec/95_test_vectors.md -/

theorem test_halt_T01 :
    after (load [0])
      (fun t => t.run == .halted .haltInstruction && t.pc == 0 && t.statusWord == 17) = true := by decide
theorem test_noop_T04 :
    after (withReg 2 21 (load [32770, 0]))
      (fun t => t.pc == 1 && t.run == .running) = true := by decide
theorem test_set_T11 :
    after (withReg 2 32770 (load [1, 32769, 32770]))
      (fun t => t.reg 1 == 32770 && t.pc == 3 && t.run == .running) = true := by decide
theorem test_set_T13 :
    after (load [1, 4, 9])
      (fun t => t.reg 1 == 9 && t.pc == 3 && t.run == .running) = true := by decide
theorem test_push_T19 :
    after (withReg 2 5 (load [2, 32770]))
      (fun t => t.stack == [5] && t.pc == 2 && t.run == .running) = true := by decide
theorem test_push_T24 :
    after { (load [2, 7]) with cfg := ⟨.fault, .multiply, some 1⟩, stack := [1] }
      (fun t => t.run == .faulted .stackOverflow && t.stack == [1] && t.statusWord == 82) = true := by decide
theorem test_pop_T20 :
    after { (load [3, 32770]) with stack := [9, 5] }
      (fun t => t.reg 2 == 9 && t.stack == [5] && t.pc == 2 && t.run == .running) = true := by decide
theorem test_pop_T22 :
    after { (load [3, 40000]) with stack := [1] }
      (fun t => t.run == .faulted .outOfBoundsAddress && t.stack == [1]) = true := by decide
theorem test_eq_T27 :
    after (withReg 0 5 (load [4, 32768, 32768, 5]))
      (fun t => t.reg 0 == 1 && t.pc == 4 && t.run == .running) = true := by decide
theorem test_eq_T26 :
    after (withReg 0 9 (load [4, 32768, 3, 4]))
      (fun t => t.reg 0 == 0 && t.pc == 4 && t.run == .running) = true := by decide
theorem test_gt_T30 :
    after (load [5, 32768, 40000, 32767])
      (fun t => t.reg 0 == 1 && t.run == .running) = true := by decide
theorem test_gt_T29 :
    after (withReg 0 9 (load [5, 32768, 3, 3]))
      (fun t => t.reg 0 == 0 && t.run == .running) = true := by decide
theorem test_jmp_T34 :
    after (withReg 1 7 (image 8 [6, 32769]))
      (fun t => t.pc == 7 && t.run == .running) = true := by decide
theorem test_jmp_T35 :
    after (load [6, 40000])
      (fun t => t.pc == 40000 && t.run == .running) = true := by decide
theorem test_jt_T38 :
    after (withReg 0 32768 (load [7, 32768, 20]))
      (fun t => t.pc == 20 && t.run == .running) = true := by decide
theorem test_jt_T37 :
    after (load [7, 0, 20])
      (fun t => t.pc == 3 && t.run == .running) = true := by decide
theorem test_jf_T39 :
    after (load [8, 0, 20])
      (fun t => t.pc == 20 && t.run == .running) = true := by decide
theorem test_jf_T40 :
    after (load [8, 5, 20])
      (fun t => t.pc == 3 && t.run == .running) = true := by decide
theorem test_add_T44 :
    after (withReg 2 1 (withReg 1 65535 (load [9, 32768, 32769, 32770])))
      (fun t => t.reg 0 == 0 && t.pc == 4 && t.run == .running) = true := by decide
theorem test_add_T09 :
    after (withReg 2 6 (withReg 1 5 (withReg 0 32771 (load [9]))))
      (fun t => t.reg 3 == 11 && t.pc == 4 && t.run == .running) = true := by decide
theorem test_mult_T48 :
    after (withReg 1 65535 (load [10, 32768, 32769, 32769]))
      (fun t => t.reg 0 == 1 && t.pc == 4 && t.run == .running) = true := by decide
theorem test_mult_T47 :
    after { (load [10, 32768, 300, 200]) with cfg := ⟨.fault, .add, none⟩ }
      (fun t => t.reg 0 == 500 && t.pc == 4 && t.run == .running) = true := by decide
theorem test_mod_T53 :
    after (load [11, 32768, 40000, 50000])
      (fun t => t.reg 0 == 40000 && t.pc == 4 && t.run == .running) = true := by decide
theorem test_mod_T55 :
    after (load [11, 40000, 10, 0])
      (fun t => t.run == .faulted .modByZero) = true := by decide
theorem test_and_T57 :
    after (withReg 2 32768 (withReg 1 65535 (load [12, 32768, 32769, 32770])))
      (fun t => t.reg 0 == 32768 && t.pc == 4 && t.run == .running) = true := by decide
theorem test_and_T56 :
    after (load [12, 32768, 12, 10])
      (fun t => t.reg 0 == 8 && t.pc == 4 && t.run == .running) = true := by decide
theorem test_or_T59 :
    after (withReg 1 32768 (load [13, 32768, 32769, 2]))
      (fun t => t.reg 0 == 32770 && t.pc == 4 && t.run == .running) = true := by decide
theorem test_or_T58 :
    after (load [13, 32768, 12, 10])
      (fun t => t.reg 0 == 14 && t.pc == 4 && t.run == .running) = true := by decide
theorem test_not_T62 :
    after (load [14, 32768, 21845])
      (fun t => t.reg 0 == 10922 && t.pc == 3 && t.run == .running) = true := by decide
theorem test_not_T63 :
    after (withReg 1 65535 (load [14, 32768, 32769]))
      (fun t => t.reg 0 == 0 && t.pc == 3 && t.run == .running) = true := by decide
theorem test_rmem_T66 :
    after (withReg 1 7 (image 100 [15, 32768, 50, 0, 0, 0, 0, 0, 0, 0, 0, 0, 0, 0, 0, 0, 0, 0, 0, 0, 0, 0, 0, 0, 0, 0, 0, 0, 0, 0, 0, 0, 0, 0, 0, 0, 0, 0, 0, 0, 0, 0, 0, 0, 0, 0, 0, 0, 0, 0, 32769]))
      (fun t => t.reg 0 == 7 && t.pc == 3 && t.run == .running) = true := by decide
theorem test_rmem_T68 :
    after (withReg 1 32768 (withReg 0 3 (load [15, 32768, 32769])))
      (fun t => t.run == .faulted .outOfBoundsAddress) = true := by decide
theorem test_wmem_T72 :
    after (withReg 2 32771 (image 100 [16, 40, 32770]))
      (fun t => t.mem.read 40 == 32771 && t.run == .running) = true := by decide
theorem test_wmem_T73 :
    after (withReg 0 32769 (load [16, 32768, 5]))
      (fun t => t.reg 1 == 5 && t.run == .running) = true := by decide
theorem test_call_T77 :
    after { (withReg 1 50 (image 51 [17, 32769])) with stack := [3] }
      (fun t => t.stack == [2, 3] && t.pc == 50 && t.run == .running) = true := by decide
theorem test_call_T81 :
    after { (load [17, 0]) with cfg := ⟨.fault, .multiply, some 2⟩, stack := [2, 1] }
      (fun t => t.run == .faulted .stackOverflow && t.stack == [2, 1] && t.pc == 0) = true := by decide
theorem test_ret_T78 :
    after { (image 13 [0, 0, 0, 0, 0, 0, 0, 0, 0, 0, 18]) with stack := [12], pc := 10 }
      (fun t => t.stack == [] && t.pc == 12 && t.run == .running) = true := by decide
theorem test_ret_T79 :
    after (load [18])
      (fun t => t.run == .halted .returnEmpty && t.pc == 0 && t.statusWord == 49) = true := by decide
theorem test_out_T83 :
    after (load [19, 321])
      (fun t => t.output == [65] && t.pc == 2 && t.run == .running) = true := by decide
theorem test_out_T84 :
    after (withReg 0 256 (load [19, 32768]))
      (fun t => t.output == [0] && t.run == .running) = true := by decide
theorem test_in_T88 :
    after { (load [20, 0]) with input := [200] }
      (fun t => t.mem.read 0 == 200 && t.pc == 2 && t.input == [] && t.run == .running) = true := by decide
theorem test_in_T86 :
    after (load [20, 32768])
      (fun t => t.pc == 0 && t.statusWord == 3 && t.waiting == true && t.run == .running) = true := by decide
theorem test_fetch_T08 :
    after (withReg 0 32769 (load [32768]))
      (fun t => t.run == .faulted .outOfRangeOpcode) = true := by decide
theorem test_fetch_T03 :
    after (load [])
      (fun t => t.run == .halted .endOfProgram && t.pc == 0) = true := by decide

/-! ### For each statement with hypotheses, a state and operands that meet them, clause by clause -/

/-- P = 32768 with nothing listed. -/
def full : State := { State.reset with mem := { size := 32768, cells := [] } }

/-- A stack at its capacity. -/
def fullStack : State := { load [2, 7] with cfg := ⟨.fault, .multiply, some 2⟩, stack := [1, 2] }

/-- A stack one below its capacity. -/
def roomyStack : State := { load [2, 7] with cfg := ⟨.fault, .multiply, some 3⟩, stack := [1, 2] }

theorem witness_DecodeInvertsEncode :
    (Instr.add (.reg 7) (.literal 32767) (.invalid 32776)).wf = true ∧ (Instr.out (.invalid 65535)).wf = true := by decide
theorem witness_EncodeInvertsDecode : decode [6, 65535, 9] = .ok (.jmp (.invalid 65535), [9]) := by decide
theorem witness_OpcodesZeroTo21AreTheInstructions :
    (21 : Word).toNat ≤ 21 ∧ 22 ≤ (22 : Word).toNat ∧ (load [22]).Fetching ∧
    (load [22]).memRead (load [22]).pc.toNat = .ok 22 := by decide
theorem witness_LengthDependsOnTheOpcodeOnly :
    (encode (.set (.reg 0) (.literal 1))).head? = (encode (.set (.literal 5) (.reg 7))).head? := by decide
theorem witness_OperandWordsHaveThreeClasses :
    (32767 : Word).toNat ≤ 32767 ∧ (32768 : Word).toNat = 32768 + (0 : Fin 8).val ∧
    (32775 : Word).toNat = 32768 + (7 : Fin 8).val ∧ 32776 ≤ (32776 : Word).toNat ∧ 32776 ≤ (65535 : Word).toNat := by decide
theorem witness_InvalidOperandWordsAreValuesAndBadAddresses :
    32776 ≤ (32776 : Word).toNat ∧ full.mem.size ≤ 32768 := by decide
theorem witness_FetchedOperandsAreValueAndDest : (load [1, 32775, 65]).rawRead 1 = .ok 32775 := by decide
theorem witness_ReadAddressMap_window :
    State.rawRead { withReg 7 9 (load [0]) with cfg := ⟨.register, .multiply, none⟩ } 32775 = .ok 9 := by decide
theorem witness_ReadAddressMap_bounds :
    (load [5, 6]).cfg.readCodeWindow = .fault ∧ 1 < (load [5, 6]).mem.size ∧
    9 = (load [5, 6]).mem.size + (7 : Fin 8).val ∧ (load [5, 6]).mem.size + 8 ≤ 10 := by decide
theorem witness_ReadAddressMap_largest_program :
    full.mem.size = 32768 ∧
    ({ full with cfg := ⟨.register, .add, some 1⟩ } : State) = { full with cfg := ⟨.register, .add, some 1⟩ } := by decide
theorem witness_WriteAddressMap :
    32775 = 32768 + (7 : Fin 8).val ∧ 1 < (load [5, 6]).mem.size ∧ 2 = (load [5, 6]).mem.size + (0 : Fin 8).val ∧
    (load [5, 6]).mem.size + 8 ≤ 10 ∧ (load [5, 6]).writeSlot 32775 = some (.register 7) := by decide
theorem witness_MemReadResolvesOneLevel :
    (load [32775, 32776]).rawRead 0 = .ok 32775 ∧ (load [32775, 32776]).rawRead 1 = .ok 32776 ∧
    (load [32775, 32776]).rawRead 10 = .error .outOfBoundsAddress := by decide
theorem witness_MemWriteIsVerbatimInOneSlot :
    (load [5, 6]).mem.wf = true ∧ (load [5, 6]).memWrite 1 32770 = .ok ((load [5, 6]).setSlot (.program 1) 32770) ∧
    (load [5, 6]).readSlot 1 = (load [5, 6]).writeSlot 1 ∧ (load [5, 6]).readSlot 0 ≠ (load [5, 6]).writeSlot 1 ∧
    (load [5, 6]).writeSlot 10 = none := by decide
theorem witness_StepRunsDecodedInstruction :
    (load [6, 9]).Fetching ∧ (load [6, 9]).memRead (load [6, 9]).pc.toNat = .ok 6 ∧
    (∀ k (h : k < [(9 : Word)].length), (load [6, 9]).rawRead ((load [6, 9]).pc.toNat + 1 + k) = .ok [(9 : Word)][k]) ∧
    decode [6, 9] = .ok (.jmp (.literal 9), []) := by
  refine ⟨by decide, by decide, fun k h => ?_, by decide⟩
  obtain rfl : k = 0 := by simpa using h
  rfl
theorem witness_EndOfProgramHaltsBeforeTheFetch :
    State.reset.resetLine = .released ∧ State.reset.run = .running ∧ State.reset.mem.size ≤ State.reset.pc.toNat := by decide
theorem witness_OpcodeCellIsResolved_dispatch :
    (withReg 2 21 (load [32770])).Fetching ∧ (withReg 2 21 (load [32770])).rawRead 0 = .ok 32770 ∧
    (32770 : Word).toNat = 32768 + (2 : Fin 8).val ∧
    decode [(withReg 2 21 (load [32770])).reg 2] = .ok (.noop, []) := by decide
theorem witness_OpcodeCellIsResolved_unknown :
    22 ≤ ((withReg 0 22 (load [32768])).reg 0).toNat ∧ (withReg 0 22 (load [32768])).rawRead 0 = .ok 32768 ∧
    (load [32776]).rawRead 0 = .ok 32776 ∧ (load [22]).rawRead 0 = .ok 22 := by decide
theorem witness_StoppedMachineTakesNoStep :
    ((load [0]).halt .haltInstruction).run = .halted .haltInstruction ∧
    ((load [0]).raise .modByZero).run = .faulted .modByZero ∧
    ((HostMove.load [1]).apply (HostMove.assertReset.apply (load [0]))).resetLine = .asserted (some [1]) ∧
    (HostMove.assertReset.apply (load [0])).resetLine = .asserted none ∧ HostMove.load [1] ≠ .releaseReset := by decide
theorem witness_OperandFetchNeverFaults :
    (load [9]).Fetching ∧ (load [9]).cfg.readCodeWindow = .fault ∧
    (load [9]).pc.toNat + 3 = (load [9]).mem.size + (2 : Fin 8).val ∧
    (load [22]).fetch = .error .outOfRangeOpcode := by decide
theorem witness_StoredOpcodeIsFetchedNext :
    (load [16, 3, 21, 0]).Fetching ∧ (load [16, 3, 21, 0]).mem.wf = true ∧
    (load [16, 3, 21, 0]).fetch = .ok (.wmem (.literal 3) (.literal 21)) ∧
    ((load [16, 3, 21, 0]).value (.literal 3)).toNat = (load [16, 3, 21, 0]).pc.toNat + 3 ∧
    (load [16, 3, 21, 0]).pc.toNat + 3 < (load [16, 3, 21, 0]).mem.size := by decide
theorem witness_HaltStopsWithPcUnchanged : (load [0]).Fetching ∧ (load [0]).memRead 0 = .ok 0 := by decide
theorem witness_NoopOnlyAdvancesPc :
    (load [21]).Fetching ∧ (load [21]).memRead 0 = .ok 21 ∧ (load [21]).mem.size ≤ 32768 ∧
    (load [21]).pc.toNat + 1 = (load [21]).mem.size := by decide
theorem witness_destination_with_a_slot :
    (load [5]).writeSlot (dest (.reg 7)) = some (.register 7) ∧ (load [5]).writeSlot (dest (.literal 0)) = some (.program 0) ∧
    (load [5]).writeSlot (dest (.literal 8)) = some (.register 7) := by decide
theorem witness_destination_without_a_slot :
    (load [5]).writeSlot (dest (.literal 9)) = none ∧ (load [5]).writeSlot (dest (.literal 32767)) = none ∧
    (load [5]).writeSlot (dest (.invalid 32776)) = none := by decide
theorem witness_PushPutsTheValueOnTop :
    (∀ n, roomyStack.cfg.stackCapacity = some n → roomyStack.stack.length < n) ∧
    fullStack.cfg.stackCapacity = some 2 ∧ 2 ≤ fullStack.stack.length := by
  refine ⟨fun n h => ?_, by decide, by decide⟩
  cases h
  decide
theorem witness_SetWritesTheValueOfB :
    (load [1]).writeSlot (dest (.reg 7)) = some (.register 7) ∧ (load [1]).writeSlot (dest (.literal 9)) = none := by decide
theorem witness_CallPushesTheReturnAddress :
    (∀ n, roomyStack.cfg.stackCapacity = some n → roomyStack.stack.length < n) ∧
    fullStack.cfg.stackCapacity = some 2 ∧ 2 ≤ fullStack.stack.length := witness_PushPutsTheValueOnTop
theorem witness_CallThenReturnRestores :
    ∀ n, roomyStack.cfg.stackCapacity = some n → roomyStack.stack.length < n := witness_PushPutsTheValueOnTop.1
theorem witness_PopWritesTheTop :
    fullStack.stack = [1, 2] ∧ fullStack.writeSlot (dest (.reg 2)) = some (.register 2) ∧ (load [3]).stack = [] ∧
    fullStack.stack ≠ [] ∧ fullStack.writeSlot (dest (.invalid 40000)) = none := by decide
theorem witness_EqAndGtWriteOneOrZero :
    (load [4]).value (.literal 3) = (load [4]).value (.literal 3) ∧
    (load [4]).value (.literal 3) ≠ (load [4]).value (.literal 4) ∧
    ((load [4]).value (.literal 32767)).toNat < ((load [4]).value (.invalid 32776)).toNat ∧
    ((load [4]).value (.literal 3)).toNat ≤ ((load [4]).value (.literal 3)).toNat := by decide
theorem witness_JmpGoesToTheValue :
    32776 ≤ (32776 : Word).toNat ∧ (load [6, 2]).resetLine = .released ∧ (load [6, 2]).run = .running ∧
    (load [6, 2]).mem.size ≤ ((load [6, 2]).value (.literal 2)).toNat ∧
    exec (.jmp (.literal 2)) (load [6, 2]) = .next ((load [6, 2]).jump 2) := by
  refine ⟨by decide, by decide, by decide, by decide, rfl⟩
theorem witness_ConditionalJumpsTestForZero :
    (load [7]).value (.invalid 65535) ≠ 0 ∧ (load [7]).value (.literal 0) = 0 := by decide
theorem witness_AddWritesTheSumModulo32768 :
    (load [9]).writeSlot (dest (.reg 0)) = some (.register 0) ∧
    (14464 : Word).toNat = (((load [9]).value (.invalid 40000)).toNat + ((load [9]).value (.invalid 40000)).toNat) % 32768 := by
  decide
theorem witness_MultWritesTheProductModulo32768 :
    (load [10]).writeSlot (dest (.reg 0)) = some (.register 0) ∧ (load [10]).cfg.multSemantics = .multiply ∧
    (27232 : Word).toNat = (((load [10]).value (.literal 300)).toNat * ((load [10]).value (.literal 200)).toNat) % 32768 ∧
    ({ load [10] with cfg := ⟨.fault, .add, none⟩ } : State).cfg.multSemantics = .add ∧
    (500 : Word).toNat = (((load [10]).value (.literal 300)).toNat + ((load [10]).value (.literal 200)).toNat) % 32768 := by
  decide
theorem witness_ModWritesTheRemainder :
    (load [11]).value (.literal 5) ≠ 0 ∧ (load [11]).writeSlot (dest (.reg 0)) = some (.register 0) ∧
    (2 : Word).toNat = ((load [11]).value (.literal 17)).toNat % ((load [11]).value (.literal 5)).toNat ∧
    (load [11]).value (.literal 0) = 0 ∧ (load [11]).writeSlot (dest (.invalid 40000)) = none := by decide
theorem witness_AndAndOrAreBitwise :
    (∀ n, n < 16 → (8 : Word).getLsbD n = (((load [12]).value (.literal 12)).getLsbD n && ((load [12]).value (.literal 10)).getLsbD n)) ∧
    (∀ n, n < 16 → (14 : Word).getLsbD n = (((load [12]).value (.literal 12)).getLsbD n || ((load [12]).value (.literal 10)).getLsbD n)) := by
  decide
theorem witness_NotComplementsFifteenBits :
    (∀ n, n < 15 → (10922 : Word).getLsbD n = !((load [14]).value (.literal 21845)).getLsbD n) ∧
    (10922 : Word).getLsbD 15 = false := by decide
theorem witness_RmemLoadsTheResolvedWord :
    (load [15, 32768, 3, 32769]).rawRead ((load [15, 32768, 3, 32769]).value (.literal 3)).toNat = .ok 32769 ∧
    (load [15, 32768, 3, 32769]).writeSlot (dest (.reg 0)) = some (.register 0) ∧
    (load [15, 32768, 3, 32769]).readSlot ((load [15, 32768, 3, 32769]).value (.literal 12)).toNat = none ∧
    (load [15, 32768, 3, 32769]).writeSlot (dest (.invalid 40000)) = none := by decide
theorem witness_WmemStoresAtTheComputedAddress :
    (withReg 0 32775 (load [16])).writeSlot ((withReg 0 32775 (load [16])).value (.reg 0)).toNat = some (.register 7) ∧
    ((withReg 0 32775 (load [16])).reg 0).toNat = 32768 + (7 : Fin 8).val ∧
    (load [16]).writeSlot ((load [16]).value (.literal 9)).toNat = none := by decide
theorem witness_RetPopsTheTargetOrHalts : (load [18]).stack = [] ∧ fullStack.stack = [1, 2] := by decide
theorem witness_OutEmitsTheLowByte : (65 : Byte).toNat = ((load [19]).value (.literal 321)).toNat % 256 := by decide
theorem witness_InTakesOneByte :
    ({ load [20, 0] with input := [255] } : State).writeSlot (dest (.literal 0)) = some (.program 0) ∧
    ({ load [20, 0] with input := [255] } : State).input = [255] ∧ (255 : Word).toNat = (255 : Byte).toNat := by decide
theorem witness_InWaitsForAByte :
    (load [20, 32768]).Fetching ∧ (load [20, 32768]).fetch = .ok (.inp (.reg 0)) ∧
    (load [20, 32768]).writeSlot (dest (.reg 0)) = some (.register 0) ∧ (load [20, 32768]).input = [] := by decide
theorem witness_ArithmeticResultRange :
    (load [9]).writeSlot (dest (.reg 0)) = some (.register 0) ∧ ((load [9]).value (.literal 32767)).toNat ≤ 32767 ∧
    (load [9]).value (.literal 32767) ≠ 0 := by decide
theorem witness_SubtractionByAddition_smallest :
    (load [9]).writeSlot (dest (.reg 0)) = some (.register 0) ∧ (32767 : Word).toNat = 32768 - 1 ∧
    ((32767 : Word).toNat : Int) = (((load [9]).value (.literal 0)).toNat - 1 : Int) % 32768 := by decide
theorem witness_SubtractionByAddition_largest :
    (1 : Word).toNat = 32768 - 32767 ∧
    ((0 : Word).toNat : Int) = (((load [9]).value (.literal 32767)).toNat - 32767 : Int) % 32768 := by decide
theorem witness_StackIsLastInFirstOut : (load [2]).cfg.stackCapacity = none := by decide
theorem witness_FaultsArePrecise :
    (load [22]).run = .running ∧ ((load [22]).raise .outOfRangeOpcode).run = .faulted .outOfRangeOpcode ∧
    step (load [22]) = .next ((load [22]).raise .outOfRangeOpcode) ∧
    exec (.pop (.reg 0)) (load [22]) = .next ((load [22]).raise .emptyStackPop) := by
  refine ⟨by decide, by decide, rfl, rfl⟩
theorem witness_HaltsChangeOnlyTheRunState :
    (load [0]).run = .running ∧ ((load [0]).halt .haltInstruction).run = .halted .haltInstruction ∧
    step (load [0]) = .next ((load [0]).halt .haltInstruction) ∧
    exec .halt (load [0]) = .next ((load [0]).halt .haltInstruction) := by
  refine ⟨by decide, by decide, rfl, rfl⟩
theorem witness_NextPcComesFromTheFourSources :
    (load [21]).run = .running ∧ exec .noop (load [21]) = .next ((load [21]).advance 1) := by
  refine ⟨by decide, rfl⟩
theorem witness_PcNeverWraps :
    full.mem.size ≤ 32768 ∧ ({ full with pc := 32767 } : State).pc.toNat < ({ full with pc := 32767 } : State).mem.size := by
  decide
theorem witness_ResultInstructionsWriteOnlyTheirDestination :
    exec (.set (.reg 0) (.literal 65)) (load [1]) = .next (((load [1]).setReg 0 65).advance 3) ∧
    (load [1]).writeSlot (dest (.reg 0)) ≠ some (.register 1) ∧
    (load [1]).readSlot 0 ≠ (load [1]).writeSlot (dest (.reg 0)) := by
  refine ⟨rfl, by decide, by decide⟩
theorem witness_PopAndInWriteOnlyTheirDestination :
    exec (.inp (.reg 0)) { load [20] with input := [72] } =
      .next ((({ load [20] with input := [72] } : State).takeByte []).setReg 0 72 |>.advance 2) ∧
    (load [20]).readSlot 0 ≠ (load [20]).writeSlot (dest (.reg 0)) := by
  refine ⟨rfl, by decide⟩
theorem witness_WmemWritesOnlyTheComputedAddress :
    exec (.wmem (.literal 0) (.literal 99)) (load [16, 5]) = .next (((load [16, 5]).setWord 0 99).advance 3) ∧
    (load [16, 5]).readSlot 1 ≠ (load [16, 5]).writeSlot ((load [16, 5]).value (.literal 0)).toNat := by
  refine ⟨rfl, by decide⟩
theorem witness_OtherInstructionsWriteNoSlot :
    exec (.out (.literal 65)) (load [19]) = .next (((load [19]).emit 65).advance 2) := rfl
theorem witness_StepKeepsTheInvariant :
    (load [20, 32768]).Inv ∧ step (load [20, 32768]) = .next (load [20, 32768]).awaitByte ∧
    (load [20, 32768]).awaitByte.Inv := by
  refine ⟨by decide, rfl, by decide⟩
theorem witness_HostMovesKeepTheInvariant : roomyStack.Inv ∧ fullStack.Inv := by decide
theorem witness_StepsKeepConstantsAndStreamOrder : step (load [21]) = .next ((load [21]).advance 1) := rfl
theorem witness_StatusWordFields :
    (load [0]).run = .running ∧ (load [0]).waiting = false ∧ (load [0]).awaitByte.waiting = true ∧
    ((load [0]).halt .returnEmpty).run = .halted .returnEmpty ∧
    ((load [0]).raise .imageTooLarge).run = .faulted .imageTooLarge ∧ [(1 : Word)].length ≤ 32768 := by decide
theorem witness_ResetSetsEveryResetValue_accepted :
    load [1, 2] = HostMove.releaseReset.apply ((HostMove.load [1, 2]).apply (HostMove.assertReset.apply State.reset)) ∧
    [(1 : Word), 2].length ≤ 32768 := by
  refine ⟨rfl, by decide⟩
theorem witness_ResetSetsEveryResetValue_refused : 32768 < (List.replicate 32769 (0 : Word)).length := by
  rw [List.length_replicate]; decide
theorem witness_HostWritesOnlyByReset :
    (∀ ws, (load [1]).resetLine ≠ .asserted (some ws)) ∧ HostMove.offerByte 1 ≠ .releaseReset := by
  exact ⟨fun ws => nofun, by decide⟩


end Sys2Proof.Tests
end

section
/-! PROOFS. The state family (spec/10_state.md): the length of an instruction and the next-pc values that are sums
(R43), and the fields of the status word (R63). -/

namespace Sys2Proof.Laws.EncodeShape

/-- The encoding of every instruction has this shape (R100, R105). -/
theorem statement_of_instr : ∀ i : Instr, Statement i
  | .halt => halt
  | .set a b => set a b
  | .push a => push a
  | .pop a => pop a
  | .eq a b c => eq a b c
  | .gt a b c => gt a b c
  | .jmp a => jmp a
  | .jt a b => jt a b
  | .jf a b => jf a b
  | .add a b c => add a b c
  | .mult a b c => mult a b c
  | .mod a b c => mod a b c
  | .and a b c => and a b c
  | .or a b c => or a b c
  | .not a b => not a b
  | .rmem a b => rmem a b
  | .wmem a b => wmem a b
  | .call a => call a
  | .ret => ret
  | .out a => out a
  | .inp a => inp a
  | .noop => noop

end Sys2Proof.Laws.EncodeShape

namespace Sys2Proof

theorem Opcode.operandCount_le (o : Opcode) : o.format.operandCount ≤ 3 := by
  cases o <;> decide

theorem encode_length_le (i : Instr) : (encode i).length ≤ 4 := by
  obtain ⟨w, o, hwords, -, hcount⟩ := Laws.EncodeShape.statement_of_instr i
  have hle := o.operandCount_le
  rw [hwords, List.length_cons, List.length_map, hcount]
  omega

/-- A sum of 16-bit words is exact when its natural number fits in 16 bits. -/
theorem Word.toNat_add_ofNat {pc : Word} {n : Nat} (h : pc.toNat + n < 65536) :
    (pc + BitVec.ofNat 16 n).toNat = pc.toNat + n := by
  rw [BitVec.toNat_add, BitVec.toNat_ofNat]
  omega

end Sys2Proof

namespace Sys2Proof.Machine

/-- Settles O47: every instruction has at most four words, so both sums stay below 2^16. -/
theorem pcNeverWraps : Obligations.PcNeverWraps := by
  intro i s hsize hpc
  have hlen := encode_length_le i
  have hnext := Word.toNat_add_ofNat (pc := s.pc) (n := (encode i).length) (by omega)
  have hret : (s.pc + 2).toNat = s.pc.toNat + 2 := Word.toNat_add_ofNat (n := 2) (by omega)
  exact ⟨hnext, by omega, hret, by omega⟩

/-! ### The status word -/

theorem HaltReason.code_le (reason : HaltReason) : reason.code ≤ 3 := by
  cases reason <;> decide

theorem Fault.code_le (kind : Fault) : kind.code ≤ 6 := by
  cases kind <;> decide

/-- CODE uses three of its four bits. -/
theorem State.codeField_le (s : State) : s.codeField ≤ 6 := by
  unfold State.codeField
  split
  case h_1 => omega
  case h_2 reason _ => exact (HaltReason.code_le reason).trans (by omega)
  case h_3 kind _ => exact Fault.code_le kind

theorem State.runStateField_le (s : State) : s.runStateField ≤ 3 := by
  unfold State.runStateField
  split
  case h_1 => split <;> omega
  case h_2 => omega
  case h_3 => omega

/-- The two fields stand side by side and fit, so nothing is cut off. -/
theorem State.statusWord_toNat (s : State) : s.statusWord.toNat = s.codeField * 16 + s.runStateField := by
  have hcode := s.codeField_le
  have hrun := s.runStateField_le
  rw [State.statusWord, BitVec.toNat_ofNat]
  omega

/-- A field of the status word, as arithmetic on CODE and RUN_STATE. -/
theorem State.statusWord_bits_toNat (s : State) (start len : Nat) :
    (s.statusWord.extractLsb' start len).toNat = (s.codeField * 16 + s.runStateField) / 2 ^ start % 2 ^ len := by
  rw [BitVec.extractLsb'_toNat, s.statusWord_toNat, Nat.shiftRight_eq_div_pow]

theorem State.statusWord_runState (s : State) : (s.statusWord.extractLsb' 0 2).toNat = s.runStateField := by
  have hbits := s.statusWord_bits_toNat 0 2
  have hrun := s.runStateField_le
  omega

theorem State.statusWord_code (s : State) : (s.statusWord.extractLsb' 4 4).toNat = s.codeField := by
  have hbits := s.statusWord_bits_toNat 4 4
  have hcode := s.codeField_le
  have hrun := s.runStateField_le
  omega

/-- Bits 3:2 stand between RUN_STATE and CODE. -/
theorem State.statusWord_bits_3_2 (s : State) : s.statusWord.extractLsb' 2 2 = 0 := by
  have hbits := s.statusWord_bits_toNat 2 2
  have hrun := s.runStateField_le
  exact BitVec.eq_of_toNat_eq (hbits.trans (by simp only [BitVec.ofNat_eq_ofNat, BitVec.toNat_ofNat]; omega))

/-- Bits 15:8 stand above CODE. -/
theorem State.statusWord_bits_15_8 (s : State) : s.statusWord.extractLsb' 8 8 = 0 := by
  have hbits := s.statusWord_bits_toNat 8 8
  have hcode := s.codeField_le
  have hrun := s.runStateField_le
  exact BitVec.eq_of_toNat_eq (hbits.trans (by simp only [BitVec.ofNat_eq_ofNat, BitVec.toNat_ofNat]; omega))

theorem State.statusWord_of_running {s : State} (hrun : s.run = .running) :
    s.statusWord = if s.waiting then 3 else 0 := by
  cases hwait : s.waiting <;> simp [State.statusWord, State.codeField, State.runStateField, hrun, hwait]

theorem State.fields_of_halted {s : State} {reason : HaltReason} (hrun : s.run = .halted reason) :
    s.runStateField = 1 ∧ s.codeField = reason.code := by
  simp [State.runStateField, State.codeField, hrun]

theorem State.fields_of_faulted {s : State} {kind : Fault} (hrun : s.run = .faulted kind) :
    s.runStateField = 2 ∧ s.codeField = kind.code := by
  simp [State.runStateField, State.codeField, hrun]

/-- The state at the release of reset after an accepted load (R60, R251). -/
theorem State.construct_of_fits {ws : List Word} (h : ws.length ≤ 32768) (cfg : Config) (offered : List Byte) :
    State.construct cfg ws offered =
      { State.reset with cfg := cfg, mem := Memory.ofWords ws, input := offered } :=
  if_pos h

/-- The status word at the release of reset after an accepted load reads RUNNING with CODE 0. -/
theorem State.statusWord_construct {ws : List Word} (h : ws.length ≤ 32768) (cfg : Config) (offered : List Byte) :
    (State.construct cfg ws offered).statusWord = 0 := by
  rw [State.construct_of_fits h]
  exact State.statusWord_of_running rfl

/-- Settles O56: each field of the status word is read off the run state, and the other bits are 0. -/
theorem statusWordFields : Obligations.StatusWordFields := by
  intro s
  refine ⟨fun hrun hwait => ?running, fun hrun hwait => ?waiting, fun reason hrun => ?halted,
    fun kind hrun => ?faulted, s.statusWord_bits_3_2, s.statusWord_bits_15_8,
    fun cfg ws offered h => State.statusWord_construct h cfg offered, rfl, rfl⟩
  case running => simp [State.statusWord_of_running hrun, hwait]
  case waiting => simp [State.statusWord_of_running hrun, hwait]
  case halted => rw [s.statusWord_runState, s.statusWord_code]; exact State.fields_of_halted hrun
  case faulted => rw [s.statusWord_runState, s.statusWord_code]; exact State.fields_of_faulted hrun

end Sys2Proof.Machine
end

section
/-! PROOFS. The memory family (spec/20_memory.md): the read and write address decodes (R74, R75), the raw read under
each, `MemRead`'s one-level resolution (R77) and `MemWrite`'s effect on every address (R78). -/

namespace Sys2Proof.Machine

/-! ### The read decode -/

/-- Where the window does not apply, a read address is a raw slot (R74). -/
theorem readSlot_raw {s : State} {A : Nat} (h : s.cfg.readCodeWindow = .fault ∨ A < 32768 ∨ 32776 ≤ A) :
    s.readSlot A = rawSlot s.mem.size A := by
  unfold State.readSlot
  split
  case h_1 => rfl
  case h_2 hcfg =>
    have hout : A < 32768 ∨ 32776 ≤ A := h.resolve_left (by simp [hcfg])
    rw [regRef?_eq_none.mpr hout]

/-- With READ_CODE_WINDOW = register a register's name is its read address (R74, D3). -/
theorem readSlot_window {s : State} {A : Nat} {r : Fin 8} (hcfg : s.cfg.readCodeWindow = .register)
    (h : A = 32768 + r.val) : s.readSlot A = some (.register r) := by
  simp [State.readSlot, hcfg, regRef?_eq_some.mpr h]

/-- In the largest program the register slots after P are the window, so both settings decode alike (R74). -/
theorem readSlot_of_largest_program {s : State} (hsize : s.mem.size = 32768) (A : Nat) :
    s.readSlot A = rawSlot s.mem.size A := by
  unfold State.readSlot
  split
  case h_1 => rfl
  case h_2 =>
    cases href : regRef? A with
    | none => rfl
    | some r => rw [rawSlot_register (hsize ▸ regRef?_eq_some.mp href)]

/-! ### Reading and writing through a decoded slot -/

theorem rawRead_of_slot {s : State} {A : Nat} {slot : Slot} (h : s.readSlot A = some slot) :
    s.rawRead A = .ok (s.getSlot slot) :=
  rawRead_ok_iff.mpr ⟨slot, h, rfl⟩

theorem rawRead_of_none {s : State} {A : Nat} (h : s.readSlot A = none) : s.rawRead A = .error .outOfBoundsAddress :=
  rawRead_error_iff.mpr ⟨h, rfl⟩

theorem memWrite_of_slot {s : State} {A : Nat} {slot : Slot} (h : s.writeSlot A = some slot) (v : Word) :
    s.memWrite A v = .ok (s.setSlot slot v) :=
  memWrite_ok_iff.mpr ⟨slot, h, rfl⟩

theorem memWrite_of_none {s : State} {A : Nat} (h : s.writeSlot A = none) (v : Word) :
    s.memWrite A v = .error .outOfBoundsAddress := by
  simp [State.memWrite, h]

/-- An address that reads the written slot reads the word written, unresolved (R78). -/
theorem rawRead_setSlot_self {s : State} (hwf : s.mem.wf = true) {B : Nat} {slot : Slot}
    (h : s.readSlot B = some slot) (v : Word) : (s.setSlot slot v).rawRead B = .ok v := by
  have hread := rawRead_of_slot ((setSlot_readSlot s slot v B).trans h)
  rwa [getSlot_setSlot_self hwf] at hread

/-- An address that reads another slot, or none, reads as before (R73). -/
theorem rawRead_setSlot_ne {s : State} {B : Nat} {slot : Slot} (h : s.readSlot B ≠ some slot) (v : Word) :
    (s.setSlot slot v).rawRead B = s.rawRead B := by
  have hdecode := setSlot_readSlot s slot v B
  cases hB : s.readSlot B with
  | none => rw [rawRead_of_none hB, rawRead_of_none (hdecode.trans hB)]
  | some other =>
    have hne : other ≠ slot := fun he => h (hB.trans (congrArg some he))
    rw [rawRead_of_slot hB, rawRead_of_slot (hdecode.trans hB), getSlot_setSlot_ne s v hne]

/-- A slot write touches only the registers and program memory (R73). -/
theorem setSlot_eq_update (s : State) (slot : Slot) (v : Word) :
    s.setSlot slot v = { s with regs := (s.setSlot slot v).regs, mem := (s.setSlot slot v).mem } := by
  cases slot <;> rfl

/-! ### The obligations -/

/-- Settles O9: by the slot that each range of addresses decodes to. -/
theorem readAddressMap : Obligations.ReadAddressMap := by
  intro s A
  refine ⟨fun r hcfg hA => rawRead_of_slot (readSlot_window hcfg hA), fun hraw => ?raw, fun hsize t ht => ?largest⟩
  case raw =>
    have hdecode := readSlot_raw hraw
    exact ⟨fun hA => rawRead_of_slot (hdecode.trans (rawSlot_program hA)),
      fun r hA => rawRead_of_slot (hdecode.trans (rawSlot_register hA)),
      fun hA => rawRead_of_none (hdecode.trans (rawSlot_none hA))⟩
  case largest =>
    have hmem : t.mem = s.mem := by rw [ht]
    have hget : t.getSlot = s.getSlot := by rw [ht]; funext slot; cases slot <;> rfl
    have hdecode : t.readSlot A = s.readSlot A := by
      rw [readSlot_of_largest_program hsize, readSlot_of_largest_program (hmem ▸ hsize), hmem]
    simp only [State.rawRead, hdecode, hget]

/-- Settles O10: `MemWrite` sets the slot that each range of addresses decodes to. -/
theorem writeAddressMap : Obligations.WriteAddressMap := by
  intro s A v
  have write_slot {slot : Slot} (h : s.writeSlot A = some slot) :
      s.writeSlot A = some slot ∧ s.memWrite A v = .ok (s.setSlot slot v) := ⟨h, memWrite_of_slot h v⟩
  refine ⟨fun r hA => write_slot (writeSlot_window s hA), fun hout => ?raw, fun slot h => (write_slot h).2⟩
  case raw =>
    have hdecode := writeSlot_raw s hout
    have hnone (hA : s.mem.size + 8 ≤ A) : s.writeSlot A = none := hdecode.trans (rawSlot_none hA)
    exact ⟨fun hA => write_slot (hdecode.trans (rawSlot_program hA)),
      fun r hA => write_slot (hdecode.trans (rawSlot_register hA)),
      fun hA => ⟨hnone hA, memWrite_of_none (hnone hA) v⟩⟩

/-- Settles O12: the state after is `setSlot` of the decoded slot, and a write faults only without one. -/
theorem memWriteIsVerbatimInOneSlot : Obligations.MemWriteIsVerbatimInOneSlot := by
  intro s A v
  refine ⟨fun t hwf hwrite => ?effect, fun h => memWrite_of_none h v, fun hfault => ?fault⟩
  case effect =>
    obtain ⟨slot, hslot, rfl⟩ := memWrite_ok_iff.mp hwrite
    rw [hslot]
    exact ⟨fun B hB => rawRead_setSlot_self hwf hB v, fun B hB => rawRead_setSlot_ne hB v,
      setSlot_eq_update s slot v, State.setSlot_size s slot v, setSlot_mem_wf hwf hslot v⟩
  case fault =>
    cases hslot : s.writeSlot A with
    | none => rfl
    | some slot => rw [memWrite_of_slot hslot] at hfault; cases hfault

/-- Settles O11: `MemRead` is the raw read followed by one resolution. -/
theorem memReadResolvesOneLevel : Obligations.MemReadResolvesOneLevel := by
  intro s A
  refine ⟨fun w hraw => ⟨fun r hw => ?reference, fun hw => ?other⟩, fun kind => memRead_error_iff.mpr⟩
  case reference => exact memRead_ok_iff.mpr ⟨w, hraw, resolve_reg s hw⟩
  case other => exact memRead_ok_iff.mpr ⟨w, hraw, resolve_self s hw⟩

end Sys2Proof.Machine
end

section
/-! PROOFS. The encoding family (spec/30_encoding.md): the shape of an encoding (R100), the classes of an operand word
(R102, R104), and the opcode words that decode and those that fault (R107, R108). -/

namespace Sys2Proof

/-! ### The shape of an encoding -/

/-- Settles O5: the opcode word names the row, and the row's format fixes the number of operand words. -/
theorem lengthDependsOnTheOpcodeOnly : Obligations.LengthDependsOnTheOpcodeOnly := by
  intro i
  obtain ⟨w, o, hwords, hop, hcount⟩ := Laws.EncodeShape.statement_of_instr i
  refine ⟨by rw [hwords, List.tail_cons], by simp [hwords], encode_length_le i, fun j hhead => ?_⟩
  obtain ⟨w', o', hwords', hop', hcount'⟩ := Laws.EncodeShape.statement_of_instr j
  have hw : w = w' := by simpa [hwords, hwords'] using hhead
  have ho : o = o' := Option.some.inj (hop.symm.trans (hw ▸ hop'))
  simp [hwords, hwords', hcount, hcount', ho]

/-! ### The classes of an operand word -/

theorem Operand.ofWord_of_literal {w : Word} (h : w.toNat < 32768) : Operand.ofWord w = .literal (w.setWidth 15) :=
  if_pos h

theorem Operand.ofWord_of_reg {w : Word} {r : Fin 8} (h : w.toNat = 32768 + r.val) : Operand.ofWord w = .reg r := by
  have hge : ¬ w.toNat < 32768 := by omega
  simp [Operand.ofWord, hge, regRef?_eq_some.mpr h]

theorem Operand.ofWord_of_invalid {w : Word} (h : 32776 ≤ w.toNat) : Operand.ofWord w = .invalid w := by
  have hge : ¬ w.toNat < 32768 := by omega
  simp [Operand.ofWord, hge, regRef?_eq_none.mpr (Or.inr h)]

/-- Bit 15 splits the words in half. -/
theorem Word.getLsbD_15 (w : Word) : w.getLsbD 15 = decide (32768 ≤ w.toNat) :=
  BitVec.msb_eq_decide w

/-- A field of a word, as arithmetic on the word. -/
theorem Word.extractLsb'_toNat_eq_div_mod (w : Word) (start len : Nat) :
    (w.extractLsb' start len).toNat = w.toNat / 2 ^ start % 2 ^ len := by
  rw [BitVec.extractLsb'_toNat, Nat.shiftRight_eq_div_pow]

/-- Settles O6: each range of words, read as arithmetic on its bit fields. -/
theorem operandWordsHaveThreeClasses : Obligations.OperandWordsHaveThreeClasses := by
  intro w
  have hfield := w.extractLsb'_toNat_eq_div_mod
  refine ⟨fun h => ?literal, fun r h => ?register, fun h => ?invalid⟩
  case literal =>
    have hvalue : (w.extractLsb' 0 15).toNat = w.toNat := by rw [hfield]; omega
    refine ⟨by rw [w.getLsbD_15, decide_eq_false_iff_not]; omega, ?_, hvalue⟩
    rw [Operand.ofWord_of_literal (by omega), BitVec.setWidth_eq_extractLsb' (by omega)]
  case register =>
    refine ⟨BitVec.eq_of_toNat_eq ?_, by rw [hfield]; omega, Operand.ofWord_of_reg h⟩
    rw [hfield, BitVec.toNat_ofNat]
    omega
  case invalid =>
    refine ⟨by rw [w.getLsbD_15, decide_eq_true_eq]; omega, fun hzero => ?_, Operand.ofWord_of_invalid h⟩
    have hbits : w.toNat / 2 ^ 3 % 2 ^ 12 = 0 := (hfield 3 12).symm.trans (congrArg BitVec.toNat hzero)
    have hlt := w.isLt
    omega

/-! ### The opcode words -/

/-- An opcode word up to 21 decodes when at least as many words follow as its format has. -/
theorem decode_isOk {w : Word} {ws : List Word} (hw : w.toNat ≤ 21) (hlen : operandCount w ≤ ws.length) :
    ∃ i rest, decode (w :: ws) = .ok (i, rest) := by
  obtain ⟨o, ho⟩ := Option.isSome_iff_exists.mp (Opcode.ofNat?_isSome.mpr hw)
  have hcount : operandCount w = o.format.operandCount := by simp [operandCount, ho]
  exact ⟨_, _, decode_ok_iff.mpr ⟨o, ho, hcount ▸ hlen, rfl, rfl⟩⟩

theorem decode_of_unknown {w : Word} (h : 22 ≤ w.toNat) (ws : List Word) :
    decode (w :: ws) = .error (.opcodeOutOfRange w) := by
  simp [decode, Opcode.ofNat?_eq_none.mpr h]

theorem operandAt_take {k n : Nat} (h : k < n) (ws : List Word) : operandAt (ws.take n) k = operandAt ws k := by
  simp [operandAt, List.getD_eq_getElem?_getD, List.getElem?_take_of_lt h]

/-- The words past an opcode's operand words do not matter to the instruction. -/
theorem Opcode.assemble_take (o : Opcode) (ws : List Word) :
    o.assemble (operandAt (ws.take o.format.operandCount) 0) (operandAt (ws.take o.format.operandCount) 1)
        (operandAt (ws.take o.format.operandCount) 2) =
      o.assemble (operandAt ws 0) (operandAt ws 1) (operandAt ws 2) := by
  cases o <;> simp [Opcode.assemble, Opcode.format, Format.operandCount, operandAt_take]

end Sys2Proof

namespace Sys2Proof.Machine

/-! ### The step of a decoded or unknown opcode -/

/-- Consecutive raw reads of fewer words give the first of them. -/
theorem rawReads_take {s : State} {A n : Nat} {ws : List Word}
    (hread : ∀ k (h : k < ws.length), s.rawRead (A + k) = .ok ws[k]) (hn : n ≤ ws.length) :
    s.rawReads A n = .ok (ws.take n) := by
  refine rawReads_ok_iff.mpr ⟨by simp [hn], fun k hk => ?_⟩
  rw [List.length_take] at hk
  rw [List.getElem_take, hread k (by omega)]

/-- The fetch gives the instruction that the resolved opcode and the raw words after it decode to (R122). -/
theorem fetch_of_decode {s : State} {op : Word} {ws : List Word} {i : Instr} {rest : List Word}
    (hop : s.memRead s.pc.toNat = .ok op)
    (hread : ∀ k (h : k < ws.length), s.rawRead (s.pc.toNat + 1 + k) = .ok ws[k])
    (hdec : decode (op :: ws) = .ok (i, rest)) : s.fetch = .ok i := by
  obtain ⟨o, ho, hlen, hi, -⟩ := decode_ok_iff.mp hdec
  have hcount : operandCount op = o.format.operandCount := by simp [operandCount, ho]
  have hreads : s.rawReads (s.pc.toNat + 1) (operandCount op) = .ok (ws.take o.format.operandCount) := by
    rw [hcount]
    exact rawReads_take hread hlen
  rw [fetch_of_opcode hop ho hreads, o.assemble_take, hi]

theorem step_of_decode {s : State} {op : Word} {ws : List Word} {i : Instr} {rest : List Word} (hs : s.Fetching)
    (hop : s.memRead s.pc.toNat = .ok op)
    (hread : ∀ k (h : k < ws.length), s.rawRead (s.pc.toNat + 1 + k) = .ok ws[k])
    (hdec : decode (op :: ws) = .ok (i, rest)) : step s = exec i s := by
  rw [step_of_fetching hs, fetch_of_decode hop hread hdec]

theorem step_of_unknown {s : State} {op : Word} (hs : s.Fetching) (hop : s.memRead s.pc.toNat = .ok op)
    (h : 22 ≤ op.toNat) : step s = .next (s.raise .outOfRangeOpcode) := by
  rw [step_of_fetching hs, fetch_of_unknown hop h]

/-- Settles O3: three words are enough operand words for every opcode, and none name an instruction from 22 up. -/
theorem opcodesZeroTo21AreTheInstructions : Obligations.OpcodesZeroTo21AreTheInstructions := by
  intro w a b c ws
  refine ⟨fun hw => decode_isOk hw ?_, fun hw => ⟨decode_of_unknown hw ws, fun s hs hop => step_of_unknown hs hop hw⟩⟩
  have hcount := operandCount_le w
  simp only [List.length_cons]
  omega

/-- Settles O15: the opcode is the cell's word resolved, so each case is that of the word it resolves to. -/
theorem opcodeCellIsResolved : Obligations.OpcodeCellIsResolved := by
  intro s w hs hraw
  have hop {v : Word} (hv : s.resolve w = v) : s.memRead s.pc.toNat = .ok v := memRead_ok_iff.mpr ⟨w, hraw, hv⟩
  refine ⟨fun r ws i rest hw hread hdec => ?dispatch, fun r hw h22 => ?resolvedUnknown, fun h22 hw => ?heldUnknown⟩
  case dispatch => exact step_of_decode hs (hop (resolve_reg s hw)) hread hdec
  case resolvedUnknown => exact step_of_unknown hs (hop (resolve_reg s hw)) h22
  case heldUnknown => exact step_of_unknown hs (hop (resolve_self s hw)) h22

/-! ### Invalid operand words -/

/-- An invalid word is past the last register slot of every program that fits. -/
theorem writeSlot_invalid {s : State} {w : Word} (hw : 32776 ≤ w.toNat) (hsize : s.mem.size ≤ 32768) :
    s.writeSlot (dest (.invalid w)) = none :=
  (writeSlot_raw s (Or.inr hw)).trans (rawSlot_none (hw.trans' (by omega)))

theorem exec_set (a b : Operand) (s : State) :
    exec (.set a b) s = s.commit (s.store (dest a) (s.value b) 3) := rfl

/-- Settles O7: an invalid word resolves to itself and has no slot to write. -/
theorem invalidOperandWordsAreValuesAndBadAddresses : Obligations.InvalidOperandWordsAreValuesAndBadAddresses := by
  intro w s hw hsize
  have hslot := writeSlot_invalid hw hsize
  refine ⟨resolve_self s (Or.inr hw), memWrite_of_none hslot, fun b => ?_⟩
  rw [exec_set, store_of_none hslot]
  rfl

end Sys2Proof.Machine
end

section
/-! PROOFS. The cycle and control family (spec/40_cycle_and_control.md): the halt at the end of the program (R121), the
fetch of operands (R123), what a halt changes (R124), and HALT and NOOP (R125, R126). -/

namespace Sys2Proof.Machine

/-! ### The start of a step -/

theorem step_of_end {s : State} (hreset : s.resetLine = .released) (hrun : s.run = .running)
    (hend : s.mem.size ≤ s.pc.toNat) : step s = .next (s.halt .endOfProgram) := by
  simp [step, hreset, hrun, hend]

/-- Settles O14: the check of pc stands before the fetch. -/
theorem endOfProgramHaltsBeforeTheFetch : Obligations.EndOfProgramHaltsBeforeTheFetch :=
  fun _ hreset hrun hend => step_of_end hreset hrun hend

/-! ### The fetch of operands -/

/-- Where the window does not apply, the address P + r reads register r (R74). -/
theorem rawRead_past_end {s : State} {A : Nat} {r : Fin 8} (hcfg : s.cfg.readCodeWindow = .fault)
    (hA : A = s.mem.size + r.val) : s.rawRead A = .ok (s.reg r) :=
  rawRead_of_slot ((readSlot_raw (Or.inl hcfg)).trans (rawSlot_register hA))

theorem memRead_of_rawRead {s : State} {A : Nat} {w : Word} (h : s.rawRead A = .ok w) :
    s.memRead A = .ok (s.resolve w) :=
  memRead_ok_iff.mpr ⟨w, h, rfl⟩

/-- Settles O17: the eight register slots after P cover every operand cell, so only the opcode word can fault. -/
theorem operandFetchNeverFaults : Obligations.OperandFetchNeverFaults := by
  intro s ⟨_, _, hpc⟩
  refine ⟨fun k hk => ?readable, fun k r hcfg _ hA => ?register, fun kind hfault => ?opcode⟩
  case readable =>
    obtain ⟨w, hw⟩ := rawRead_isOk (s := s) (A := s.pc.toNat + k) (by omega)
    exact ⟨w, s.resolve w, hw, memRead_of_rawRead hw⟩
  case register =>
    have hraw := rawRead_past_end hcfg hA
    exact ⟨hraw, memRead_of_rawRead hraw⟩
  case opcode =>
    rcases fetch_cases hpc with ⟨i, hi⟩ | hunknown
    · cases hi.symm.trans hfault
    · exact Except.error.inj (hfault.symm.trans hunknown)

/-! ### What a stop changes -/

/-- How a transition leaves the run state: as it was, or by a halt or a fault that changes nothing else (R124, R222). -/
inductive RunStateMove (s t : State) : Prop
  | kept (h : t.run = s.run)
  | halted (reason : HaltReason) (h : t = s.halt reason)
  | faulted (kind : Fault) (h : t = s.raise kind)

theorem Effect.runStateMove {s t : State} {i : Instr} (h : Effect s i t) : RunStateMove s t := by
  cases h with
  | faulted _ kind => exact .faulted kind rfl
  | stopped _ reason => exact .halted reason rfl
  | waited | pushed | called | returned | emitted | jumped | fellThrough => exact .kept rfl
  | stored | popped | taken => exact .kept (by simp)

theorem exec_runStateMove {s t : State} {i : Instr} (h : exec i s = .next t) : RunStateMove s t :=
  (exec_effect h).runStateMove

theorem step_runStateMove {s t : State} (h : step s = .next t) : RunStateMove s t := by
  rcases step_cases h with ⟨rfl, -⟩ | ⟨-, -, rfl⟩ | ⟨-, -, rfl⟩ | ⟨-, i, -, hexec⟩
  · exact .kept rfl
  · exact .halted _ rfl
  · exact .faulted _ rfl
  · exact exec_runStateMove hexec

/-- A running state that came to HALTED(reason) halted for that reason. -/
theorem RunStateMove.eq_halt {s t : State} {reason : HaltReason} (h : RunStateMove s t) (hs : s.run = .running)
    (ht : t.run = .halted reason) : t = s.halt reason := by
  cases h with
  | kept hrun => cases hs.symm.trans (hrun.symm.trans ht)
  | halted _ h => subst h; cases ht; rfl
  | faulted _ h => subst h; cases ht

/-- Settles O45: `exec` and `step` leave RUNNING for HALTED by `Halt(reason)` only. -/
theorem haltsChangeOnlyTheRunState : Obligations.HaltsChangeOnlyTheRunState :=
  fun _ _ _ hs ht => ⟨fun _ h => (exec_runStateMove h).eq_halt hs ht, fun h => (step_runStateMove h).eq_halt hs ht⟩

/-! ### HALT and NOOP -/

theorem exec_halt (s : State) : exec .halt s = .next (s.halt .haltInstruction) := rfl

theorem exec_noop (s : State) : exec .noop s = .next (s.advance 1) := rfl

/-- An instruction of one word is executed whatever stands after it. -/
theorem step_of_single_word {s : State} {op : Word} {i : Instr} (hs : s.Fetching)
    (hop : s.memRead s.pc.toNat = .ok op) (hdec : decode [op] = .ok (i, [])) : step s = exec i s :=
  step_of_decode hs hop (fun _ hk => absurd hk (Nat.not_lt_zero _)) hdec

/-- Settles O20: the resolved word 0 alone decodes to HALT. -/
theorem haltStopsWithPcUnchanged : Obligations.HaltStopsWithPcUnchanged :=
  fun s => ⟨rfl, exec_halt s, fun hs hop => (step_of_single_word hs hop rfl).trans (exec_halt s)⟩

/-- Settles O21: the resolved word 21 alone decodes to NOOP, and from P - 1 the fall-through reaches P unwrapped. -/
theorem noopOnlyAdvancesPc : Obligations.NoopOnlyAdvancesPc := by
  intro s
  refine ⟨rfl, exec_noop s, fun hs hop =>
    ⟨(step_of_single_word hs hop rfl).trans (exec_noop s), fun hsize hlast => ?lastWord⟩⟩
  case lastWord =>
    obtain ⟨hreset, hrun, -⟩ := hs
    have hpc : (s.advance 1).pc.toNat = s.pc.toNat + 1 := Word.toNat_add_ofNat (by omega)
    exact step_of_end (s := s.advance 1) hreset hrun (by rw [hpc, hlast, State.advance_mem])

end Sys2Proof.Machine
end

section
/-! PROOFS. The register and stack family (spec/41_register_stack.md): SET, PUSH and POP (R140 to R142). -/

namespace Sys2Proof.Machine

/-! ### Completing an instruction that stores -/

/-- A register operand as a destination is that register's slot (R75, R103). -/
theorem writeSlot_reg (s : State) (r : Fin 8) : s.writeSlot (dest (.reg r)) = some (.register r) :=
  writeSlot_window s (Nat.mod_eq_of_lt (by omega))

theorem commit_store_of_slot {s : State} {A : Nat} {slot : Slot} (h : s.writeSlot A = some slot) (v : Word)
    (len : Nat) :
    s.commit (s.store A v len) = .next { s.setSlot slot v with pc := s.pc + BitVec.ofNat 16 len } := by
  rw [store_of_slot h, commit_ok, advance_setSlot]

theorem commit_store_of_none {s : State} {A : Nat} (h : s.writeSlot A = none) (v : Word) (len : Nat) :
    s.commit (s.store A v len) = .next (s.raise .outOfBoundsAddress) := by
  rw [store_of_none h, commit_error]

/-! ### The stack instructions -/

theorem exec_push (a : Operand) (s : State) :
    exec (.push a) s = s.commit ((s.push (s.value a)).map fun t => t.advance 2) := rfl

theorem exec_pop_of_empty {s : State} (h : s.stack = []) (a : Operand) :
    exec (.pop a) s = .next (s.raise .emptyStackPop) := by
  simp [exec, execPop, pop_of_empty h]

/-- On a stack that is not empty POP stores the top word from the state without it (R142). -/
theorem exec_pop_of_cons {s : State} {v : Word} {rest : List Word} (h : s.stack = v :: rest) (a : Operand) :
    exec (.pop a) s = s.commit ({ s with stack := rest }.store (dest a) v 2) := by
  simp [exec, execPop, pop_of_cons h]

/-- A slot write does not look at the stack. -/
theorem setSlot_with_stack (s : State) (rest : List Word) (slot : Slot) (v : Word) :
    { s with stack := rest }.setSlot slot v = { s.setSlot slot v with stack := rest } := by
  cases slot <;> rfl

/-- The destination is decoded in the state without the top word, where every address has the slot it had. -/
theorem writeSlot_with_stack (s : State) (rest : List Word) (A : Nat) :
    { s with stack := rest }.writeSlot A = s.writeSlot A :=
  writeSlot_congr rfl A

/-! ### The obligations -/

/-- Settles O22: SET is one store, and a register's slot is there for every program. -/
theorem setWritesTheValueOfB : Obligations.SetWritesTheValueOfB := by
  intro a b s
  refine ⟨rfl, fun slot hslot => ?slot, fun r ha => ?register, fun hnone => ?noSlot⟩
  case slot => exact (exec_set a b s).trans (commit_store_of_slot hslot _ 3)
  case register =>
    subst ha
    exact (exec_set _ b s).trans (commit_store_of_slot (writeSlot_reg s r) _ 3)
  case noSlot => exact (exec_set a b s).trans (commit_store_of_none hnone _ 3)

/-- Settles O23: by whether the push finds the stack full. -/
theorem pushPutsTheValueOnTop : Obligations.PushPutsTheValueOnTop := by
  intro a s
  refine ⟨rfl, fun hroom => ?room, fun n hcap hlen => ?full⟩
  case room =>
    rw [exec_push, push_of_room (stackFull_eq_false_iff.mpr hroom)]
    rfl
  case full =>
    rw [exec_push, push_of_full (stackFull_eq_true_iff.mpr ⟨n, hcap, hlen⟩)]
    rfl

/-- Settles O24: an empty stack faults before the store of the top word, which the slot of a decides. -/
theorem popWritesTheTop : Obligations.PopWritesTheTop := by
  intro a s
  refine ⟨rfl, fun v rest slot hs hslot => ?slot, fun hempty => exec_pop_of_empty hempty a, fun hne hnone => ?noSlot⟩
  case slot =>
    rw [exec_pop_of_cons hs, store_of_slot ((writeSlot_with_stack s rest _).trans hslot), commit_ok, advance_setSlot,
      setSlot_with_stack]
    rfl
  case noSlot =>
    obtain ⟨v, rest, hs⟩ := List.exists_cons_of_ne_nil hne
    rw [exec_pop_of_cons hs, store_of_none ((writeSlot_with_stack s rest _).trans hnone), commit_error]
    rfl

end Sys2Proof.Machine
end

section
/-! PROOFS. The comparison family (spec/42_compare.md): EQ and GT (R150, R151). -/

namespace Sys2Proof.Machine

/-! ### The result words -/

theorem eqResult_of_eq {b c : Word} (h : b = c) : eqResult b c = 1 := by
  simp [eqResult, truthWord, h]

theorem eqResult_of_ne {b c : Word} (h : b ≠ c) : eqResult b c = 0 := by
  simp [eqResult, truthWord, h]

theorem gtResult_of_lt {b c : Word} (h : c.toNat < b.toNat) : gtResult b c = 1 := by
  simp [gtResult, truthWord, h]

/-- GT is strict: equal values give 0 (R151). -/
theorem gtResult_of_le {b c : Word} (h : b.toNat ≤ c.toNat) : gtResult b c = 0 := by
  simp [gtResult, truthWord, Nat.not_lt.mpr h]

/-! ### The instructions -/

theorem exec_eq (a b c : Operand) (s : State) :
    exec (.eq a b c) s = s.commit (s.store (dest a) (eqResult (s.value b) (s.value c)) 4) := rfl

theorem exec_gt (a b c : Operand) (s : State) :
    exec (.gt a b c) s = s.commit (s.store (dest a) (gtResult (s.value b) (s.value c)) 4) := rfl

/-- Settles O25: each comparison is one store, whose word is the outcome of its test. -/
theorem eqAndGtWriteOneOrZero : Obligations.EqAndGtWriteOneOrZero := by
  intro a b c s
  refine ⟨rfl, rfl, fun slot hslot => ?slot, fun hnone => ?noSlot⟩
  case slot =>
    have hstore (v : Word) : s.commit (s.store (dest a) v 4) = .next { s.setSlot slot v with pc := s.pc + 4 } :=
      commit_store_of_slot hslot v 4
    rw [exec_eq, exec_gt, hstore, hstore]
    exact ⟨fun h => by rw [eqResult_of_eq h], fun h => by rw [eqResult_of_ne h],
      fun h => by rw [gtResult_of_lt h], fun h => by rw [gtResult_of_le h]⟩
  case noSlot =>
    exact ⟨(exec_eq a b c s).trans (commit_store_of_none hnone _ 4),
      (exec_gt a b c s).trans (commit_store_of_none hnone _ 4)⟩

end Sys2Proof.Machine
end

section
/-! PROOFS. The jump family (spec/43_jump.md): JMP (R160), and JT and JF (R161, R162). -/

namespace Sys2Proof.Machine

/-! ### The value of an operand, by its class (R102, R103) -/

theorem value_literal (s : State) (v : BitVec 15) : s.value (.literal v) = BitVec.ofNat 16 v.toNat := by
  have hsmall : (v.setWidth 16).toNat < 32768 := by rw [BitVec.toNat_setWidth_of_le (by omega)]; exact v.isLt
  exact (resolve_self s (Or.inl hsmall)).trans (BitVec.ofNat_toNat 16 v).symm

theorem value_reg (s : State) (r : Fin 8) : s.value (.reg r) = s.reg r :=
  resolve_reg s (Nat.mod_eq_of_lt (by omega))

theorem value_invalid (s : State) {w : Word} (hw : 32776 ≤ w.toNat) : s.value (.invalid w) = w :=
  resolve_self s (Or.inr hw)

/-! ### The instructions -/

theorem exec_jmp (a : Operand) (s : State) : exec (.jmp a) s = .next (s.jump (s.value a)) := rfl

theorem exec_jt (a b : Operand) (s : State) :
    exec (.jt a b) s = .next (if isNonzero (s.value a) then s.jump (s.value b) else s.advance 3) := rfl

theorem exec_jf (a b : Operand) (s : State) :
    exec (.jf a b) s = .next (if isNonzero (s.value a) then s.advance 3 else s.jump (s.value b)) := rfl

/-- Settles O26: the target is the value of a, and the machine still runs for the next step to check it against P. -/
theorem jmpGoesToTheValue : Obligations.JmpGoesToTheValue := by
  intro s
  have jmp_to {a : Operand} {target : Word} (h : s.value a = target) :
      exec (.jmp a) s = .next { s with pc := target } := h ▸ exec_jmp a s
  refine ⟨fun _ => rfl, fun v => jmp_to (value_literal s v), fun r => jmp_to (value_reg s r),
    fun w hw => jmp_to (value_invalid s hw), fun a t hreset hrun hend hexec => ?pastEnd⟩
  case pastEnd =>
    obtain rfl : s.jump (s.value a) = t := Host.Outcome.next.inj ((exec_jmp a s).symm.trans hexec)
    exact step_of_end (s := s.jump (s.value a)) hreset hrun hend

/-- Settles O27: both jumps test the value of a, and the test sends exactly one of them to the value of b. -/
theorem conditionalJumpsTestForZero : Obligations.ConditionalJumpsTestForZero := by
  intro a b s
  refine ⟨rfl, rfl, fun hne => ?nonzero, fun hzero => ?zero⟩
  case nonzero =>
    have htest : isNonzero (s.value a) = true := isNonzero_iff.mpr hne
    rw [exec_jt, exec_jf, if_pos htest, if_pos htest]
    exact ⟨rfl, rfl⟩
  case zero =>
    have htest : ¬ isNonzero (s.value a) = true := fun h => isNonzero_iff.mp h hzero
    rw [exec_jt, exec_jf, if_neg htest, if_neg htest]
    exact ⟨rfl, rfl⟩

end Sys2Proof.Machine
end

section
/-! PROOFS. The arithmetic and logic family (spec/44_arith_logic.md): ADD, MULT, MOD, AND, OR and NOT (R170 to R175),
the range of their results (R176), and subtraction by addition (R177). -/

namespace Sys2Proof.Machine

/-! ### The result words -/

theorem addResult_toNat (b c : Word) : (addResult b c).toNat = (b.toNat + c.toNat) % 32768 := by
  rw [addResult, BitVec.toNat_ofNat]
  omega

theorem multResult_multiply_toNat (b c : Word) :
    (multResult .multiply b c).toNat = (b.toNat * c.toNat) % 32768 := by
  rw [multResult, BitVec.toNat_ofNat]
  omega

/-- Under MULT_SEMANTICS = add MULT computes what ADD does (R171). -/
theorem multResult_add (b c : Word) : multResult .add b c = addResult b c := rfl

theorem modResult_toNat (b c : Word) : (modResult b c).toNat = b.toNat % c.toNat :=
  Nat.mod_eq_of_lt ((Nat.mod_le _ _).trans_lt b.isLt)

theorem andResult_getLsbD (b c : Word) (n : Nat) : (andResult b c).getLsbD n = (b.getLsbD n && c.getLsbD n) :=
  BitVec.getLsbD_and

theorem orResult_getLsbD (b c : Word) (n : Nat) : (orResult b c).getLsbD n = (b.getLsbD n || c.getLsbD n) :=
  BitVec.getLsbD_or

/-- The mask 0x7FFF keeps the complemented bits 14:0 (R175). -/
theorem notResult_getLsbD {n : Nat} (hn : n < 15) (b : Word) : (notResult b).getLsbD n = !b.getLsbD n := by
  have hmask : ∀ k < 15, (0x7FFF : Word).getLsbD k = true := by decide
  have hwidth : n < 16 := by omega
  rw [notResult, BitVec.getLsbD_and, BitVec.getLsbD_not, hmask n hn]
  simp [hwidth]

/-- The mask 0x7FFF clears bit 15 (R175). -/
theorem notResult_getLsbD_15 (b : Word) : (notResult b).getLsbD 15 = false := by
  simp [notResult]

/-! ### The range of the results (R176) -/

theorem addResult_le (b c : Word) : (addResult b c).toNat ≤ 32767 := by
  rw [addResult_toNat]
  omega

theorem multResult_le (sem : MultSemantics) (b c : Word) : (multResult sem b c).toNat ≤ 32767 := by
  cases sem with
  | multiply => rw [multResult_multiply_toNat]; omega
  | add => exact addResult_le b c

theorem notResult_le (b : Word) : (notResult b).toNat ≤ 32767 := by
  rw [notResult, BitVec.toNat_and]
  exact Nat.and_le_right

theorem modResult_le (b c : Word) : (modResult b c).toNat ≤ b.toNat :=
  (modResult_toNat b c).trans_le (Nat.mod_le _ _)

theorem andResult_le (b c : Word) : (andResult b c).toNat ≤ b.toNat := by
  rw [andResult, BitVec.toNat_and]
  exact Nat.and_le_left

/-- Two values without bit 15 give a result without it. -/
theorem orResult_le {b c : Word} (hb : b.toNat ≤ 32767) (hc : c.toNat ≤ 32767) : (orResult b c).toNat ≤ 32767 := by
  have hlt : b.toNat ||| c.toNat < 2 ^ 15 := Nat.or_lt_two_pow (by omega) (by omega)
  rw [orResult, BitVec.toNat_or]
  omega

/-! ### The instructions -/

theorem exec_mod_of_zero {s : State} {c : Operand} (hc : s.value c = 0) (a b : Operand) :
    exec (.mod a b c) s = .next (s.raise .modByZero) :=
  congrArg s.commit (if_pos hc)

/-- By a nonzero value MOD is one store (R172). -/
theorem exec_mod_of_ne_zero {s : State} {c : Operand} (hc : s.value c ≠ 0) (a b : Operand) :
    exec (.mod a b c) s = s.commit (s.store (dest a) (modResult (s.value b) (s.value c)) 4) :=
  congrArg s.commit (if_neg hc)

section
variable {s : State} {a : Operand} {slot : Slot} (hslot : s.writeSlot (dest a) = some slot)
include hslot

theorem exec_add_of_slot (b c : Operand) :
    exec (.add a b c) s = .next { s.setSlot slot (addResult (s.value b) (s.value c)) with pc := s.pc + 4 } :=
  commit_store_of_slot hslot _ 4

theorem exec_mult_of_slot (b c : Operand) :
    exec (.mult a b c) s = .next
      { s.setSlot slot (multResult s.cfg.multSemantics (s.value b) (s.value c)) with pc := s.pc + 4 } :=
  commit_store_of_slot hslot _ 4

theorem exec_mod_of_slot {c : Operand} (hc : s.value c ≠ 0) (b : Operand) :
    exec (.mod a b c) s = .next { s.setSlot slot (modResult (s.value b) (s.value c)) with pc := s.pc + 4 } :=
  (exec_mod_of_ne_zero hc a b).trans (commit_store_of_slot hslot _ 4)

theorem exec_and_of_slot (b c : Operand) :
    exec (.and a b c) s = .next { s.setSlot slot (andResult (s.value b) (s.value c)) with pc := s.pc + 4 } :=
  commit_store_of_slot hslot _ 4

theorem exec_or_of_slot (b c : Operand) :
    exec (.or a b c) s = .next { s.setSlot slot (orResult (s.value b) (s.value c)) with pc := s.pc + 4 } :=
  commit_store_of_slot hslot _ 4

theorem exec_not_of_slot (b : Operand) :
    exec (.not a b) s = .next { s.setSlot slot (notResult (s.value b)) with pc := s.pc + 3 } :=
  commit_store_of_slot hslot _ 3

end

/-! ### The obligations on one instruction -/

/-- Settles O28: ADD is one store, and the sum modulo 32768 fixes its word. -/
theorem addWritesTheSumModulo32768 : Obligations.AddWritesTheSumModulo32768 := by
  intro a b c s
  refine ⟨rfl, fun slot v hslot hv => ?slot, fun hnone => commit_store_of_none hnone _ 4⟩
  case slot =>
    obtain rfl : v = addResult (s.value b) (s.value c) := BitVec.eq_of_toNat_eq (hv.trans (addResult_toNat _ _).symm)
    exact exec_add_of_slot hslot b c

/-- Settles O29: MULT is one store, whose word each setting of MULT_SEMANTICS fixes. -/
theorem multWritesTheProductModulo32768 : Obligations.MultWritesTheProductModulo32768 := by
  intro a b c s
  refine ⟨rfl, fun slot v hslot hsem hv => ?multiply, fun slot v hslot hsem hv => ?add, rfl,
    fun hnone => commit_store_of_none hnone _ 4⟩
  case multiply =>
    obtain rfl : v = multResult .multiply (s.value b) (s.value c) :=
      BitVec.eq_of_toNat_eq (hv.trans (multResult_multiply_toNat _ _).symm)
    rw [exec_mult_of_slot hslot, hsem]
  case add =>
    obtain rfl : v = addResult (s.value b) (s.value c) := BitVec.eq_of_toNat_eq (hv.trans (addResult_toNat _ _).symm)
    rw [exec_mult_of_slot hslot, hsem, multResult_add]

/-- Settles O30: the value of c is tested first, and only a nonzero one leads to the store. -/
theorem modWritesTheRemainder : Obligations.ModWritesTheRemainder := by
  intro a b c s
  refine ⟨rfl, fun slot v hc hslot hv => ?slot, fun hc => exec_mod_of_zero hc a b, fun hc hnone => ?noSlot⟩
  case slot =>
    obtain rfl : v = modResult (s.value b) (s.value c) := BitVec.eq_of_toNat_eq (hv.trans (modResult_toNat _ _).symm)
    exact exec_mod_of_slot hslot hc b
  case noSlot => exact (exec_mod_of_ne_zero hc a b).trans (commit_store_of_none hnone _ 4)

/-- Settles O31: each is one store, whose word its sixteen bits fix. -/
theorem andAndOrAreBitwise : Obligations.AndAndOrAreBitwise := by
  intro a b c s
  refine ⟨rfl, rfl, fun slot v hslot hbits => ?and, fun slot v hslot hbits => ?or,
    fun hnone => ⟨commit_store_of_none hnone _ 4, commit_store_of_none hnone _ 4⟩⟩
  case and =>
    obtain rfl : v = andResult (s.value b) (s.value c) :=
      BitVec.eq_of_getLsbD_eq fun n hn => (hbits n hn).trans (andResult_getLsbD _ _ n).symm
    exact exec_and_of_slot hslot b c
  case or =>
    obtain rfl : v = orResult (s.value b) (s.value c) :=
      BitVec.eq_of_getLsbD_eq fun n hn => (hbits n hn).trans (orResult_getLsbD _ _ n).symm
    exact exec_or_of_slot hslot b c

/-- The complement of bits 14:0 and a clear bit 15 leave one word (R175). -/
theorem eq_notResult {v b : Word} (hbits : ∀ n, n < 15 → v.getLsbD n = !b.getLsbD n) (htop : v.getLsbD 15 = false) :
    v = notResult b := by
  refine BitVec.eq_of_getLsbD_eq fun n hn => ?_
  rcases Nat.lt_succ_iff_lt_or_eq.mp hn with hlow | rfl
  · rw [hbits n hlow, notResult_getLsbD hlow]
  · rw [htop, notResult_getLsbD_15]

/-- Settles O32: NOT is one store of three words' length, whose word its sixteen bits fix. -/
theorem notComplementsFifteenBits : Obligations.NotComplementsFifteenBits := by
  intro a b s
  refine ⟨rfl, fun slot v hslot hbits htop => ?slot, fun hnone => commit_store_of_none hnone _ 3⟩
  case slot =>
    rw [eq_notResult hbits htop]
    exact exec_not_of_slot hslot b

/-! ### The obligations on results -/

/-- Settles O40: the range of each result word, and for MOD, AND and OR the values 40000 and 65535. -/
theorem arithmeticResultRange : Obligations.ArithmeticResultRange := by
  have hslot : State.reset.writeSlot (dest (.reg 0)) = some (.register 0) := writeSlot_reg _ 0
  refine ⟨fun a b c s slot hslot => ?range,
    ⟨.invalid 40000, .invalid 65535, State.reset, _, exec_mod_of_slot hslot (by decide) _, rfl, by decide⟩,
    ⟨.invalid 40000, .invalid 65535, State.reset, _, exec_and_of_slot hslot _ _, rfl, by decide⟩,
    ⟨.invalid 40000, .invalid 65535, State.reset, _, exec_or_of_slot hslot _ _, rfl, by decide⟩⟩
  case range =>
    exact ⟨⟨_, addResult_le _ _, exec_add_of_slot hslot b c⟩, ⟨_, multResult_le _ _ _, exec_mult_of_slot hslot b c⟩,
      ⟨_, notResult_le _, exec_not_of_slot hslot b⟩, fun hb hc =>
        ⟨⟨_, (andResult_le _ _).trans hb, exec_and_of_slot hslot b c⟩,
          ⟨_, orResult_le hb hc, exec_or_of_slot hslot b c⟩,
          fun hne => ⟨_, (modResult_le _ _).trans hb, exec_mod_of_slot hslot hne b⟩⟩⟩

/-- Adding 32768 - k to b is subtracting k from it modulo 32768 (R177). -/
theorem addResult_of_complement {b w : Word} {k : Nat} (hk : k ≤ 32767) (hw : w.toNat = 32768 - k) :
    ((addResult b w).toNat : Int) = (b.toNat - k : Int) % 32768 := by
  rw [addResult_toNat, hw]
  omega

/-- Settles O41: 32768 - k is a literal for k from 1, so ADD adds it as it stands. -/
theorem subtractionByAddition : Obligations.SubtractionByAddition := by
  refine ⟨fun a b s slot k w v hslot hpos hk hw hv => ?difference, Operand.ofWord_of_reg (r := 0) rfl⟩
  case difference =>
    have hvalue : s.value (Operand.ofWord w) = w := by
      rw [State.value, Operand.word_ofWord]
      exact resolve_self s (Or.inl (by omega))
    obtain rfl : v = addResult (s.value b) w :=
      BitVec.eq_of_toNat_eq (Int.ofNat_inj.mp (hv.trans (addResult_of_complement hk hw).symm))
    rw [exec_add_of_slot hslot, hvalue]

end Sys2Proof.Machine
end

section
/-! PROOFS. The memory access family (spec/45_memory_access.md): RMEM (R190) and WMEM (R191). -/

namespace Sys2Proof.Machine

/-! ### The instructions -/

/-- RMEM's read is checked first: without a read slot nothing is asked of the destination (R190). -/
theorem exec_rmem_of_no_readSlot {s : State} {b : Operand} (h : s.readSlot (s.value b).toNat = none) (a : Operand) :
    exec (.rmem a b) s = .next (s.raise .outOfBoundsAddress) := by
  have hread : s.memRead (s.value b).toNat = .error .outOfBoundsAddress := memRead_error_iff.mpr (rawRead_of_none h)
  simp [exec, execRmem, hread]

/-- After a successful read RMEM is one store of the word read, resolved once more (R190). -/
theorem exec_rmem_of_rawRead {s : State} {b : Operand} {w : Word} (h : s.rawRead (s.value b).toNat = .ok w)
    (a : Operand) : exec (.rmem a b) s = s.commit (s.store (dest a) (s.resolve w) 3) := by
  simp [exec, execRmem, memRead_of_rawRead h]

theorem exec_wmem (a b : Operand) (s : State) :
    exec (.wmem a b) s = s.commit (s.store (s.value a).toNat (s.value b) 3) := rfl

/-! ### The obligations -/

/-- Settles O33: the read slot decides whether RMEM reaches its store, and both ways to fault are the same fault. -/
theorem rmemLoadsTheResolvedWord : Obligations.RmemLoadsTheResolvedWord := by
  intro a b s
  refine ⟨rfl, fun w slot hread hslot => ?load, fun hnoRead => exec_rmem_of_no_readSlot hnoRead a,
    fun hnoWrite => ?noWriteSlot⟩
  case load => exact (exec_rmem_of_rawRead hread a).trans (commit_store_of_slot hslot _ 3)
  case noWriteSlot =>
    cases hread : s.readSlot (s.value b).toNat with
    | none => exact exec_rmem_of_no_readSlot hread a
    | some slot => exact (exec_rmem_of_rawRead (rawRead_of_slot hread) a).trans (commit_store_of_none hnoWrite _ 3)

/-- Settles O34: WMEM is one store, and a reference held in a register names a register's slot. -/
theorem wmemStoresAtTheComputedAddress : Obligations.WmemStoresAtTheComputedAddress := by
  intro a b s
  refine ⟨rfl, fun slot hslot => ?slot, fun r q ha hq => ?reference, fun hnone => ?noSlot⟩
  case slot => exact (exec_wmem a b s).trans (commit_store_of_slot hslot _ 3)
  case reference =>
    subst ha
    have haddr : (s.value (.reg r)).toNat = 32768 + q.val := (congrArg BitVec.toNat (value_reg s r)).trans hq
    exact (exec_wmem _ b s).trans (commit_store_of_slot (writeSlot_window s haddr) _ 3)
  case noSlot => exact (exec_wmem a b s).trans (commit_store_of_none hnone _ 3)

end Sys2Proof.Machine
end

section
/-! PROOFS. The call and return family (spec/46_call_return.md): CALL (R200) and RET (R201). -/

namespace Sys2Proof.Machine

/-! ### The instructions -/

/-- The target is taken in the state before the push (R200). -/
theorem exec_call_of_room {s : State} (h : s.stackFull = false) (a : Operand) :
    exec (.call a) s = .next (({ s with stack := (s.pc + 2) :: s.stack } : State).jump (s.value a)) := by
  simp [exec, execCall, push_of_room h, Except.map]

theorem exec_call_of_full {s : State} (h : s.stackFull = true) (a : Operand) :
    exec (.call a) s = .next (s.raise .stackOverflow) := by
  simp [exec, execCall, push_of_full h, Except.map]

/-- RET tests for an empty stack itself, so the fault of `Pop` is never taken (R201). -/
theorem exec_ret_of_empty {s : State} (h : s.stack = []) : exec .ret s = .next (s.halt .returnEmpty) := by
  simp [exec, execRet, h]

theorem exec_ret_of_cons {s : State} {v : Word} {rest : List Word} (h : s.stack = v :: rest) :
    exec .ret s = .next (({ s with stack := rest } : State).jump v) := by
  simp [exec, execRet, h, pop_of_cons h, Except.map]

/-! ### The obligations -/

/-- Settles O35: room on the stack decides between the push with its jump and the fault. -/
theorem callPushesTheReturnAddress : Obligations.CallPushesTheReturnAddress := by
  intro a s
  exact ⟨rfl, fun hroom => exec_call_of_room (stackFull_eq_false_iff.mpr hroom) a,
    fun n hcap hlen => exec_call_of_full (stackFull_eq_true_iff.mpr ⟨n, hcap, hlen⟩) a⟩

/-- Settles O36: RET halts on an empty stack and jumps to the popped word on any other. -/
theorem retPopsTheTargetOrHalts : Obligations.RetPopsTheTargetOrHalts := by
  intro s
  exact ⟨rfl, exec_ret_of_empty, fun _ _ => exec_ret_of_cons⟩

end Sys2Proof.Machine
end

section
/-! PROOFS. The input and output family (spec/47_io.md): OUT (R210). -/

namespace Sys2Proof.Machine

theorem exec_out (a : Operand) (s : State) :
    exec (.out a) s = .next ((s.emit ((s.value a).setWidth 8)).advance 2) := rfl

/-- The value modulo 256 fixes the byte emitted: it is bits 7:0 (R210). -/
theorem eq_setWidth_of_toNat_mod {b : Byte} {w : Word} (h : b.toNat = w.toNat % 256) : b = w.setWidth 8 :=
  BitVec.eq_of_toNat_eq (h.trans (BitVec.toNat_setWidth 8 w).symm)

/-- Settles O37: OUT always emits, and the value modulo 256 fixes its byte. -/
theorem outEmitsTheLowByte : Obligations.OutEmitsTheLowByte := by
  intro a s
  refine ⟨rfl, fun b hb => ?emitted⟩
  case emitted =>
    obtain rfl : b = (s.value a).setWidth 8 := eq_setWidth_of_toNat_mod hb
    exact exec_out a s

end Sys2Proof.Machine
end

section
/-! PROOFS. The round trips of the encoding (spec/30_encoding.md R100, R102, R105, R108): decode of encode and encode
of decode, through the opcode's number and its operand words. -/

namespace Sys2Proof

/-! ### An instruction as an opcode and operands -/

/-- The opcode column of R105, whose rows are declared in the column's order. -/
def Opcode.number (o : Opcode) : Nat := o.ctorIdx

theorem Opcode.ofNat?_eq_some_iff {n : Nat} {o : Opcode} : Opcode.ofNat? n = some o ↔ n = o.number := by
  constructor
  · intro h
    unfold Opcode.ofNat? at h
    split at h <;> cases h <;> rfl
  · rintro rfl
    cases o <;> rfl

theorem Opcode.number_lt (o : Opcode) : o.number < 22 := by
  cases o <;> decide

theorem Opcode.toNat_ofNat_number (o : Opcode) : (BitVec.ofNat 16 o.number).toNat = o.number :=
  Nat.mod_eq_of_lt (o.number_lt.trans (by decide))

/-- The encoding of an assembled instruction: the opcode's number, then the words of the operands it has. -/
theorem encode_assemble (o : Opcode) (a b c : Operand) :
    encode (o.assemble a b c) =
      BitVec.ofNat 16 o.number :: [a.word, b.word, c.word].take o.format.operandCount := by
  cases o <;> rfl

/-- Every instruction is its row's opcode with its operands in order; operands past the row's format are free. -/
theorem Instr.exists_assemble : ∀ i : Instr, ∃ (o : Opcode) (a b c : Operand), o.assemble a b c = i
  | .halt => ⟨.halt, .reg 0, .reg 0, .reg 0, rfl⟩
  | .set a b => ⟨.set, a, b, b, rfl⟩
  | .push a => ⟨.push, a, a, a, rfl⟩
  | .pop a => ⟨.pop, a, a, a, rfl⟩
  | .eq a b c => ⟨.eq, a, b, c, rfl⟩
  | .gt a b c => ⟨.gt, a, b, c, rfl⟩
  | .jmp a => ⟨.jmp, a, a, a, rfl⟩
  | .jt a b => ⟨.jt, a, b, b, rfl⟩
  | .jf a b => ⟨.jf, a, b, b, rfl⟩
  | .add a b c => ⟨.add, a, b, c, rfl⟩
  | .mult a b c => ⟨.mult, a, b, c, rfl⟩
  | .mod a b c => ⟨.mod, a, b, c, rfl⟩
  | .and a b c => ⟨.and, a, b, c, rfl⟩
  | .or a b c => ⟨.or, a, b, c, rfl⟩
  | .not a b => ⟨.not, a, b, b, rfl⟩
  | .rmem a b => ⟨.rmem, a, b, b, rfl⟩
  | .wmem a b => ⟨.wmem, a, b, b, rfl⟩
  | .call a => ⟨.call, a, a, a, rfl⟩
  | .ret => ⟨.ret, .reg 0, .reg 0, .reg 0, rfl⟩
  | .out a => ⟨.out, a, a, a, rfl⟩
  | .inp a => ⟨.inp, a, a, a, rfl⟩
  | .noop => ⟨.noop, .reg 0, .reg 0, .reg 0, rfl⟩

/-! ### The operand words -/

/-- Classifying the operand words of a well-formed instruction again gives the instruction (R102). -/
theorem Opcode.assemble_ofWord_word {o : Opcode} {a b c : Operand} (h : (o.assemble a b c).wf = true) :
    o.assemble (Operand.ofWord a.word) (Operand.ofWord b.word) (Operand.ofWord c.word) = o.assemble a b c := by
  cases o <;> simp_all [Opcode.assemble, Instr.wf, Instr.operands, Operand.ofWord_word]

theorem operandAt_word (ws : List Word) (k : Nat) : (operandAt ws k).word = ws.getD k 0 :=
  Operand.word_ofWord _

/-- Up to three words of a list that has them, one by one. -/
theorem take_getD_eq_take {ws : List Word} {n : Nat} (hn : n ≤ 3) (hlen : n ≤ ws.length) :
    [ws.getD 0 0, ws.getD 1 0, ws.getD 2 0].take n = ws.take n := by
  refine List.ext_getElem (by simp [hn, hlen]) fun k hk hk' => ?_
  have hkn : k < n := hk'.trans_le (List.length_take_le ..)
  have hget : ws[k]'(by omega) = ws.getD k 0 := List.getElem_eq_getD 0
  have hk3 : k < 3 := by omega
  rw [List.getElem_take, List.getElem_take, hget]
  interval_cases k <;> rfl

/-- The encoding of an instruction assembled from a list of words is its opcode and the first of the words. -/
theorem encode_assemble_operandAt {o : Opcode} {ws : List Word} (hlen : o.format.operandCount ≤ ws.length) :
    encode (o.assemble (operandAt ws 0) (operandAt ws 1) (operandAt ws 2)) =
      BitVec.ofNat 16 o.number :: ws.take o.format.operandCount := by
  rw [encode_assemble, operandAt_word, operandAt_word, operandAt_word, take_getD_eq_take o.operandCount_le hlen]

/-! ### The round trips -/

/-- Settles O1: a well-formed instruction is assembled from its own operand words, and the decoder, which looks at no
word past them, assembles it from the same words. -/
theorem decodeInvertsEncode : Obligations.DecodeInvertsEncode := by
  intro i rest hwf
  obtain ⟨o, a, b, c, rfl⟩ := i.exists_assemble
  rw [encode_assemble, List.cons_append, decode_ok_iff]
  have hlen : ([a.word, b.word, c.word].take o.format.operandCount).length = o.format.operandCount := by
    simp [o.operandCount_le]
  refine ⟨o, Opcode.ofNat?_eq_some_iff.mpr o.toNat_ofNat_number, by simp [hlen], ?operands,
    (List.drop_left' hlen).symm⟩
  case operands =>
    rw [← o.assemble_take, List.take_left' hlen, o.assemble_take]
    exact (Opcode.assemble_ofWord_word hwf).symm

/-- Settles O2: the opcode word is the number of the row it names, and the operands hold the words they were read
from. -/
theorem encodeInvertsDecode : Obligations.EncodeInvertsDecode := by
  intro ws i rest hdec
  cases ws with
  | nil => cases hdec
  | cons w ws =>
    obtain ⟨o, ho, hlen, rfl, rfl⟩ := decode_ok_iff.mp hdec
    have hw : BitVec.ofNat 16 o.number = w := by
      rw [← Opcode.ofNat?_eq_some_iff.mp ho, BitVec.ofNat_toNat, BitVec.setWidth_eq]
    refine ⟨Machine.assemble_wf o ws, ?_⟩
    rw [encode_assemble_operandAt hlen, hw, List.cons_append, List.take_append_drop]

/-- Settles O4: each word sequence is decoded. -/
theorem writtenOutWordsDecode : Obligations.WrittenOutWordsDecode :=
  ⟨rfl, rfl, rfl, rfl, rfl, rfl, rfl, rfl, rfl, rfl⟩

end Sys2Proof
end

section
/-! PROOFS. What every executed instruction leaves unchanged, and the frames of the 22 instructions
(spec/10_state.md R33, R48, R57, R61), with the sources of the next pc (R127) and precise faults (R222). -/

namespace Sys2Proof.Machine

/-! ### The slot an instruction writes -/

/-- The slot an instruction's result goes to, where it has one: `WriteSlot` of its address (R75). -/
def writtenSlot (s : State) (i : Instr) : Option Slot :=
  (storeAddress s i).bind s.writeSlot

/-- Taking a byte does not look at the slots. -/
theorem setSlot_takeByte (s : State) (rest : List Byte) (slot : Slot) (v : Word) :
    (s.takeByte rest).setSlot slot v = (s.setSlot slot v).takeByte rest := by
  cases slot <;> rfl

/-- An executed instruction leaves the registers and program memory alone, or puts one word into its slot. -/
theorem Effect.slot_cases {s t : State} {i : Instr} (h : Effect s i t) :
    (t.regs = s.regs ∧ t.mem = s.mem) ∨
    ∃ slot v, writtenSlot s i = some slot ∧ t.regs = (s.setSlot slot v).regs ∧ t.mem = (s.setSlot slot v).mem := by
  cases h with
  | faulted | stopped | waited | pushed | called | returned | emitted | jumped | fellThrough => exact Or.inl ⟨rfl, rfl⟩
  | stored _ A slot v hA hslot => exact Or.inr ⟨slot, v, by rw [writtenSlot, hA]; exact hslot, rfl, rfl⟩
  | popped a slot v rest _ hslot => exact Or.inr ⟨slot, v, hslot, by simp [setSlot_with_stack]⟩
  | taken a slot b rest _ hslot => exact Or.inr ⟨slot, b.setWidth 16, hslot, by simp [setSlot_takeByte]⟩

theorem Effect.constants {s t : State} {i : Instr} (h : Effect s i t) :
    t.mem.size = s.mem.size ∧ t.cfg = s.cfg ∧ t.resetLine = s.resetLine := by
  cases h with
  | faulted | stopped | waited | pushed | called | returned | emitted | jumped | fellThrough => exact ⟨rfl, rfl, rfl⟩
  | stored | popped | taken => simp

/-! ### Registers and addresses -/

/-- A raw read looks at the configuration, the registers and program memory only. -/
theorem rawRead_congr {s t : State} (hcfg : t.cfg = s.cfg) (hregs : t.regs = s.regs) (hmem : t.mem = s.mem) (A : Nat) :
    t.rawRead A = s.rawRead A := by
  have hget : t.getSlot = s.getSlot := by
    funext slot
    cases slot <;> simp [State.getSlot, State.reg, hregs, hmem]
  simp only [State.rawRead, readSlot_congr hcfg (congrArg Memory.size hmem), hget]

theorem reg_congr {s t : State} (hregs : t.regs = s.regs) (r : Fin 8) : t.reg r = s.reg r := by
  simp [State.reg, hregs]

/-- A register that is not the written slot keeps its value (R33). -/
theorem Effect.reg_frame {s t : State} {i : Instr} (h : Effect s i t) {r : Fin 8}
    (hr : writtenSlot s i ≠ some (.register r)) : t.reg r = s.reg r := by
  rcases h.slot_cases with ⟨hregs, -⟩ | ⟨slot, v, hslot, hregs, -⟩
  · exact reg_congr hregs r
  · have hne : Slot.register r ≠ slot := fun he => hr (he ▸ hslot)
    exact (reg_congr hregs r).trans (getSlot_setSlot_ne s v hne)

/-- An address that does not read the written slot reads as before (R73). -/
theorem Effect.rawRead_frame {s t : State} {i : Instr} (h : Effect s i t) {A : Nat}
    (hA : ∀ slot, writtenSlot s i = some slot → s.readSlot A ≠ some slot) : t.rawRead A = s.rawRead A := by
  obtain ⟨-, hcfg, -⟩ := h.constants
  rcases h.slot_cases with ⟨hregs, hmem⟩ | ⟨slot, v, hslot, hregs, hmem⟩
  · exact rawRead_congr hcfg hregs hmem A
  · calc t.rawRead A = (s.setSlot slot v).rawRead A :=
        rawRead_congr (hcfg.trans (State.setSlot_cfg s slot v).symm) hregs hmem A
      _ = s.rawRead A := rawRead_setSlot_ne (hA slot hslot) v

/-- The frame of an instruction that writes to the address A: every register and every address but A's slot. -/
theorem Effect.address_frame {s t : State} {i : Instr} (h : Effect s i t) {A : Nat}
    (hslot : writtenSlot s i = s.writeSlot A) :
    (∀ r : Fin 8, s.writeSlot A ≠ some (.register r) → t.reg r = s.reg r) ∧
    ∀ B, s.readSlot B ≠ s.writeSlot A → t.rawRead B = s.rawRead B :=
  ⟨fun _ hr => h.reg_frame (hslot ▸ hr),
    fun _ hB => h.rawRead_frame fun _ hw hread => hB (hread.trans (hw.symm.trans hslot))⟩

/-! ### The stack and the streams -/

/-- Only PUSH, POP, CALL and RET touch the stack (R48). -/
theorem Effect.stack_frame {s t : State} {i : Instr} (h : Effect s i t) (hpush : ∀ a, i ≠ .push a)
    (hpop : ∀ a, i ≠ .pop a) (hcall : ∀ a, i ≠ .call a) (hret : i ≠ .ret) : t.stack = s.stack := by
  cases h with
  | faulted | stopped | waited | emitted | jumped | fellThrough => rfl
  | stored | taken => simp
  | pushed a => exact absurd rfl (hpush a)
  | popped a => exact absurd rfl (hpop a)
  | called a => exact absurd rfl (hcall a)
  | returned => exact absurd rfl hret

/-- Only OUT touches the output (R57). -/
theorem Effect.output_frame {s t : State} {i : Instr} (h : Effect s i t) (hout : ∀ a, i ≠ .out a) :
    t.output = s.output := by
  cases h with
  | faulted | stopped | waited | pushed | called | returned | jumped | fellThrough => rfl
  | stored | popped | taken => simp
  | emitted a => exact absurd rfl (hout a)

/-- Only IN touches the input and the waiting bit (R56, R61). -/
theorem Effect.input_frame {s t : State} {i : Instr} (h : Effect s i t) (hinp : ∀ a, i ≠ .inp a) :
    t.input = s.input ∧ t.waiting = s.waiting := by
  cases h with
  | faulted | stopped | pushed | called | returned | emitted | jumped | fellThrough => exact ⟨rfl, rfl⟩
  | stored | popped => simp
  | waited a | taken a => exact absurd rfl (hinp a)

/-! ### The frames of the instructions -/

/-- Settles O48: each of the ten writes the slot of its destination word, and none is an instruction of the stack or
of the streams. -/
theorem resultInstructionsWriteOnlyTheirDestination : Obligations.ResultInstructionsWriteOnlyTheirDestination := by
  intro d b c i s t hi hexec
  have heff := exec_effect hexec
  have hslot : writtenSlot s i = s.writeSlot (dest d) := by
    simp only [List.mem_cons, List.not_mem_nil, or_false] at hi
    rcases hi with rfl | rfl | rfl | rfl | rfl | rfl | rfl | rfl | rfl | rfl <;> rfl
  have hinp : ∀ a, i ≠ .inp a := by rintro a rfl; simp at hi
  obtain ⟨hreg, hread⟩ := heff.address_frame hslot
  obtain ⟨hinput, hwaiting⟩ := heff.input_frame hinp
  refine ⟨hreg, hread, heff.stack_frame ?push ?pop ?call ?ret, heff.output_frame ?out, hinput, hwaiting,
    heff.constants⟩
  case ret => rintro rfl; simp at hi
  all_goals rintro a rfl; simp at hi

/-- Settles O49: both write the slot of their destination word, POP is no instruction of the input and IN none of the
stack. -/
theorem popAndInWriteOnlyTheirDestination : Obligations.PopAndInWriteOnlyTheirDestination := by
  intro d i s t hi hexec
  have heff := exec_effect hexec
  have hslot : writtenSlot s i = s.writeSlot (dest d) := by
    simp only [List.mem_cons, List.not_mem_nil, or_false] at hi
    rcases hi with rfl | rfl <;> rfl
  obtain ⟨hreg, hread⟩ := heff.address_frame hslot
  refine ⟨hreg, hread, fun hin => ?stack, fun hpop => ?input, heff.output_frame ?out, heff.constants⟩
  case stack =>
    subst hin
    exact heff.stack_frame (by simp) (by simp) (by simp) (by simp)
  case input =>
    subst hpop
    exact heff.input_frame (by simp)
  case out => rintro a rfl; simp at hi

/-- Settles O50: WMEM's slot is that of the value of a. -/
theorem wmemWritesOnlyTheComputedAddress : Obligations.WmemWritesOnlyTheComputedAddress := by
  intro a b s t hexec
  have heff := exec_effect hexec
  obtain ⟨hreg, hread⟩ := heff.address_frame (A := (s.value a).toNat) rfl
  obtain ⟨hinput, hwaiting⟩ := heff.input_frame (by simp)
  exact ⟨hreg, hread, heff.stack_frame (by simp) (by simp) (by simp) (by simp), heff.output_frame (by simp), hinput,
    hwaiting, heff.constants⟩

/-- Settles O51: none of the nine has a slot to write. -/
theorem otherInstructionsWriteNoSlot : Obligations.OtherInstructionsWriteNoSlot := by
  intro a b i s t hi hexec
  have heff := exec_effect hexec
  have hslot : writtenSlot s i = none := by
    simp only [List.mem_cons, List.not_mem_nil, or_false] at hi
    rcases hi with rfl | rfl | rfl | rfl | rfl | rfl | rfl | rfl | rfl <;> rfl
  have hinp : ∀ a, i ≠ .inp a := by rintro a rfl; simp at hi
  obtain ⟨hinput, hwaiting⟩ := heff.input_frame hinp
  refine ⟨fun r => heff.reg_frame (by simp [hslot]), fun A => heff.rawRead_frame (by simp [hslot]),
    fun hnot => heff.stack_frame ?push ?pop ?call ?ret, fun hout => heff.output_frame ?out, hinput, hwaiting,
    heff.constants⟩
  case ret => rintro rfl; simp at hnot
  case pop => rintro c rfl; simp at hi
  case push | call | out => rintro c rfl; simp_all

/-! ### The next pc -/

/-- Settles O46: by the effect, each of which has one source for pc. -/
theorem nextPcComesFromTheFourSources : Obligations.NextPcComesFromTheFourSources := by
  intro i s t hrun hexec
  cases exec_effect hexec with
  | faulted | stopped => exact Or.inr (Or.inr (Or.inr (Or.inl ⟨by simp, rfl⟩)))
  | waited a hin => exact Or.inr (Or.inr (Or.inr (Or.inr ⟨a, rfl, hin, rfl⟩)))
  | stored | popped | taken => exact Or.inl ⟨by simp [hrun], by simp [encode]⟩
  | pushed | emitted | fellThrough => exact Or.inl ⟨hrun, rfl⟩
  | called a => exact Or.inr (Or.inl ⟨a, a, Or.inr (Or.inl rfl), hrun, rfl⟩)
  | returned v rest hst => exact Or.inr (Or.inr (Or.inl ⟨rfl, hrun, hst⟩))
  | jumped _ a hi =>
    rcases hi with rfl | ⟨c, hi | hi⟩
    · exact Or.inr (Or.inl ⟨a, a, Or.inl rfl, hrun, rfl⟩)
    · exact Or.inr (Or.inl ⟨a, c, Or.inr (Or.inr (Or.inl hi)), hrun, rfl⟩)
    · exact Or.inr (Or.inl ⟨a, c, Or.inr (Or.inr (Or.inr hi)), hrun, rfl⟩)

/-! ### Precise faults -/

/-- A running state that came to FAULTED(kind) took that fault. -/
theorem RunStateMove.eq_raise {s t : State} {kind : Fault} (h : RunStateMove s t) (hs : s.run = .running)
    (ht : t.run = .faulted kind) : t = s.raise kind := by
  cases h with
  | kept hrun => cases hs.symm.trans (hrun.symm.trans ht)
  | halted _ h => subst h; cases ht
  | faulted _ h => subst h; cases ht; rfl

/-- Settles O44: `exec` and `step` leave RUNNING for FAULTED by taking the fault only. -/
theorem faultsArePrecise : Obligations.FaultsArePrecise :=
  fun _ _ _ hs ht => ⟨fun _ h => (exec_runStateMove h).eq_raise hs ht, fun h => (step_runStateMove h).eq_raise hs ht⟩

end Sys2Proof.Machine
end

section
/-! PROOFS. The whole machine: the wait of an IN (R211, R213), the invariant of the reachable states (R37, R47, R56),
and runs of steps (R52, R120). -/

namespace Sys2Proof.Machine

/-! ### IN -/

theorem exec_inp_of_no_slot {s : State} {a : Operand} (h : s.writeSlot (dest a) = none) :
    exec (.inp a) s = .next (s.raise .outOfBoundsAddress) := by
  simp [exec, execInp, h]

theorem exec_inp_of_no_byte {s : State} {a : Operand} {slot : Slot} (hslot : s.writeSlot (dest a) = some slot)
    (hin : s.input = []) : exec (.inp a) s = .next s.awaitByte := by
  simp [exec, execInp, hslot, hin]

theorem exec_inp_of_byte {s : State} {a : Operand} {slot : Slot} {b : Byte} {rest : List Byte}
    (hslot : s.writeSlot (dest a) = some slot) (hin : s.input = b :: rest) :
    exec (.inp a) s = .next (((s.takeByte rest).setSlot slot (b.setWidth 16)).advance 2) := by
  simp [exec, execInp, hslot, hin]

/-- The word equal to a byte is the byte zero-extended (R211). -/
theorem eq_setWidth_of_toNat_eq {v : Word} {b : Byte} (h : v.toNat = b.toNat) : v = b.setWidth 16 :=
  BitVec.eq_of_toNat_eq (h.trans (BitVec.toNat_setWidth_of_le (by omega)).symm)

/-- The state after an IN that took a byte, field by field. -/
theorem advance_setSlot_takeByte (s : State) (rest : List Byte) (slot : Slot) (v : Word) :
    ((s.takeByte rest).setSlot slot v).advance 2 =
      { s.setSlot slot v with input := rest, waiting := false, pc := s.pc + 2 } := by
  cases slot <;> rfl

/-- Settles O38: the destination's slot is asked for first, and then the offered byte is stored. -/
theorem inTakesOneByte : Obligations.InTakesOneByte := by
  intro a s
  refine ⟨rfl, fun slot b rest v hslot hin hv => ?byte, exec_inp_of_no_slot⟩
  case byte =>
    obtain rfl := eq_setWidth_of_toNat_eq hv
    rw [exec_inp_of_byte hslot hin, advance_setSlot_takeByte]

/-! ### The wait -/

theorem awaitByte_of_waiting {s : State} (h : s.waiting = true) : s.awaitByte = s := by
  rw [State.awaitByte, ← h]

/-- A fetching step whose fetch gives an instruction executes it (R122). -/
theorem step_of_fetch {s : State} {i : Instr} (hs : s.Fetching) (hfetch : s.fetch = .ok i) : step s = exec i s := by
  rw [step_of_fetching hs, hfetch]

/-- At an IN with a slot and no byte offered the step is the wait (R213; log 6). -/
theorem step_of_wait {s : State} {a : Operand} {slot : Slot} (hs : s.Fetching) (hfetch : s.fetch = .ok (.inp a))
    (hslot : s.writeSlot (dest a) = some slot) (hin : s.input = []) : step s = .next s.awaitByte :=
  (step_of_fetch hs hfetch).trans (exec_inp_of_no_byte hslot hin)

theorem step_of_reset {s : State} {image : Option (List Word)} (h : s.resetLine = .asserted image) :
    step s = .next s := by
  simp [step, h]

/-- A justified wait repeats: nothing but the waiting bit changes, and that is set already (R213). -/
theorem step_of_waiting {s : State} (hjust : s.waitJustified = true) (hwait : s.waiting = true) : step s = .next s := by
  obtain ⟨hrun, hpc, hin, a, hfetch, hsome⟩ := (waitJustified_iff s).mp hjust hwait
  obtain ⟨slot, hslot⟩ := Option.isSome_iff_exists.mp hsome
  cases hreset : s.resetLine with
  | asserted image => exact step_of_reset hreset
  | released => rw [step_of_wait ⟨hreset, hrun, hpc⟩ hfetch hslot hin, awaitByte_of_waiting hwait]

/-- The wait of an IN that has a slot and no byte is justified (R56). -/
theorem awaitByte_waitJustified {s : State} {a : Operand} (hrun : s.run = .running) (hpc : s.pc.toNat < s.mem.size)
    (hfetch : s.fetch = .ok (.inp a)) (hslot : (s.writeSlot (dest a)).isSome = true) (hin : s.input = []) :
    s.awaitByte.waitJustified = true := by
  have hsame : s.awaitByte.fetch = s.fetch := fetch_congr rfl rfl rfl rfl
  exact (waitJustified_iff _).mpr fun _ => ⟨hrun, hpc, hin, a, hsame.trans hfetch, hslot⟩

/-- Settles O39: the wait is a step that repeats, and an offered byte turns it into the store. -/
theorem inWaitsForAByte : Obligations.InWaitsForAByte := by
  intro s a slot hs hfetch hslot hin
  have ⟨hreset, hrun, hpc⟩ := hs
  have hjust := awaitByte_waitJustified hrun hpc hfetch (Option.isSome_iff_exists.mpr ⟨slot, hslot⟩) hin
  refine ⟨exec_inp_of_no_byte hslot hin, step_of_wait hs hfetch hslot hin, step_of_waiting hjust rfl,
    State.statusWord_of_running (s := s.awaitByte) hrun, fun b v hv => ?offered⟩
  case offered =>
    obtain rfl := eq_setWidth_of_toNat_eq hv
    have hinput : ((HostMove.offerByte b).apply s.awaitByte).input = [b] := by simp [HostMove.apply, hin]
    have hsame : ((HostMove.offerByte b).apply s.awaitByte).fetch = s.fetch := fetch_congr rfl rfl rfl rfl
    have hexec := exec_inp_of_byte (s := (HostMove.offerByte b).apply s.awaitByte) hslot hinput
    rw [advance_setSlot_takeByte] at hexec
    have hstep := step_of_fetch (s := (HostMove.offerByte b).apply s.awaitByte) ⟨hreset, hrun, hpc⟩ (hsame.trans hfetch)
    refine hstep.trans (hexec.trans ?_)
    cases slot <;> rfl

/-! ### The invariant along a step -/

/-- Every effect keeps program memory in canonical form (R37). -/
theorem Effect.mem_wf {s t : State} {i : Instr} (h : Effect s i t) (hwf : s.mem.wf = true) : t.mem.wf = true := by
  rcases h.slot_cases with ⟨-, hmem⟩ | ⟨slot, v, hslot, -, hmem⟩
  · exact hmem ▸ hwf
  · obtain ⟨A, -, hA⟩ := Option.bind_eq_some_iff.mp hslot
    exact hmem ▸ setSlot_mem_wf hwf hA v

/-- A push is made only where there is room for it (R47). -/
theorem stackFits_of_room {s t : State} {v : Word} (hroom : s.stackFull = false) (hcfg : t.cfg = s.cfg)
    (hst : t.stack = v :: s.stack) : t.stackFits = true :=
  (stackFits_iff t).mpr fun n hn => by
    rw [hst, List.length_cons]
    exact stackFull_eq_false_iff.mp hroom n (hcfg ▸ hn)

theorem stackFits_of_le {s t : State} (hfits : s.stackFits = true) (hcfg : t.cfg = s.cfg)
    (hst : t.stack.length ≤ s.stack.length) : t.stackFits = true :=
  (stackFits_iff t).mpr fun n hn => hst.trans ((stackFits_iff s).mp hfits n (hcfg ▸ hn))

theorem Effect.stackFits {s t : State} {i : Instr} (h : Effect s i t) (hfits : s.stackFits = true) :
    t.stackFits = true := by
  obtain ⟨-, hcfg, -⟩ := h.constants
  cases h with
  | faulted | stopped | waited | emitted | jumped | fellThrough => exact hfits
  | stored | taken => exact stackFits_of_le hfits hcfg (by simp)
  | popped _ _ _ _ hst | returned _ _ hst => exact stackFits_of_le hfits hcfg (by simp [hst])
  | pushed _ hroom | called _ hroom => exact stackFits_of_room hroom hcfg rfl

/-- An instruction that does not itself wait leaves no new wait behind (R56). -/
theorem Effect.waiting_cases {s t : State} {i : Instr} (h : Effect s i t) (hwait : s.waiting = false) :
    t.waiting = false ∨
    ∃ a, i = .inp a ∧ s.input = [] ∧ (s.writeSlot (dest a)).isSome = true ∧ t = s.awaitByte := by
  cases h with
  | faulted | stopped | pushed | called | returned | emitted | jumped | fellThrough => exact Or.inl hwait
  | stored | popped | taken => exact Or.inl (by simp [hwait])
  | waited a hin hslot => exact Or.inr ⟨a, rfl, hin, hslot, rfl⟩

/-- The effect of the fetched instruction on a state that does not wait keeps the invariant. -/
theorem Effect.inv {s t : State} {i : Instr} (h : Effect s i t) (hs : s.Fetching) (hfetch : s.fetch = .ok i)
    (hinv : s.Inv) (hwait : s.waiting = false) : t.Inv := by
  obtain ⟨hwf, hfits, -⟩ := hinv
  refine ⟨h.mem_wf hwf, h.stackFits hfits, ?_⟩
  rcases h.waiting_cases hwait with hnot | ⟨a, rfl, hin, hslot, rfl⟩
  · exact waitJustified_of_not_waiting hnot
  · obtain ⟨-, hrun, hpc⟩ := hs
    exact awaitByte_waitJustified hrun hpc hfetch hslot hin

/-- Settles O52: a waiting state repeats itself, and from any other only an IN can begin a wait. -/
theorem stepKeepsTheInvariant : Obligations.StepKeepsTheInvariant := by
  intro s t hinv hstep
  have ⟨hwf, hfits, hjust⟩ := hinv
  cases hwait : s.waiting with
  | true =>
    obtain rfl : s = t := Host.Outcome.next.inj ((step_of_waiting hjust hwait).symm.trans hstep)
    exact hinv
  | false =>
    rcases step_cases hstep with ⟨rfl, -⟩ | ⟨-, -, rfl⟩ | ⟨-, -, rfl⟩ | ⟨hs, i, hfetch, hexec⟩
    · exact hinv
    · exact ⟨hwf, hfits, waitJustified_of_not_waiting hwait⟩
    · exact ⟨hwf, hfits, waitJustified_of_not_waiting hwait⟩
    · exact (exec_effect hexec).inv hs hfetch hinv hwait

/-! ### The invariant along the host's moves -/

/-- WHAT A MOVE OF THE HOST CAN DO: change the reset line alone, release reset after a load, or offer a byte. -/
theorem HostMove.apply_cases (m : HostMove) (s : State) :
    (∃ line, m.apply s = { s with resetLine := line }) ∨
    (∃ ws, m = .releaseReset ∧ s.resetLine = .asserted (some ws) ∧ m.apply s = State.construct s.cfg ws s.input) ∨
    ∃ b, m.apply s = { s with input := s.input ++ [b], waiting := false } := by
  cases m with
  | assertReset => exact Or.inl ⟨.asserted none, rfl⟩
  | load ws =>
    cases hline : s.resetLine with
    | released => exact Or.inl ⟨s.resetLine, show _ = s by simp [HostMove.apply, hline]⟩
    | asserted image => exact Or.inl ⟨.asserted (some ws), by simp [HostMove.apply, hline]⟩
  | releaseReset =>
    rcases hline : s.resetLine with _ | _ | ws
    · exact Or.inl ⟨s.resetLine, show _ = s by simp [HostMove.apply, hline]⟩
    · exact Or.inl ⟨s.resetLine, show _ = s by simp [HostMove.apply, hline]⟩
    · exact Or.inr (Or.inl ⟨ws, rfl, rfl, by simp [HostMove.apply, hline]⟩)
  | offerByte b => exact Or.inr (Or.inr ⟨b, rfl⟩)

/-- Settles O53: an accepted load is in canonical form, and a refused one leaves the empty memory. -/
theorem resetMeetsTheInvariant : Obligations.ResetMeetsTheInvariant := by
  refine ⟨by decide, fun cfg ws offered => ?_⟩
  have hfits : ({ State.reset with cfg := cfg } : State).stackFits = true :=
    (stackFits_iff _).mpr fun n _ => Nat.zero_le n
  unfold State.construct
  split
  · exact ⟨Memory.ofWords_wf ‹_›, hfits, waitJustified_of_not_waiting rfl⟩
  · exact ⟨rfl, hfits, waitJustified_of_not_waiting rfl⟩

/-- The invariant does not look at the reset line. -/
theorem State.Inv.with_resetLine {s : State} (h : s.Inv) (line : ResetLine) :
    ({ s with resetLine := line } : State).Inv := by
  obtain ⟨hwf, hfits, hjust⟩ := h
  have hfetch : ({ s with resetLine := line } : State).fetch = s.fetch := fetch_congr rfl rfl rfl rfl
  exact ⟨hwf, hfits, (waitJustified_iff _).mpr (hfetch ▸ (waitJustified_iff s).mp hjust)⟩

/-- Settles O54: a move changes the reset line, gives the state at the release of reset, or ends the wait. -/
theorem hostMovesKeepTheInvariant : Obligations.HostMovesKeepTheInvariant := by
  intro m s hinv
  rcases m.apply_cases s with ⟨line, hm⟩ | ⟨ws, -, -, hm⟩ | ⟨b, hm⟩ <;> rw [hm]
  · exact hinv.with_resetLine line
  · exact resetMeetsTheInvariant.2 s.cfg ws s.input
  · obtain ⟨hwf, hfits, -⟩ := hinv
    exact ⟨hwf, hfits, waitJustified_of_not_waiting rfl⟩

/-! ### Constants and streams along a step -/

theorem Effect.output_appends {s t : State} {i : Instr} (h : Effect s i t) :
    ∃ bs : List Byte, bs.length ≤ 1 ∧ t.output = s.output ++ bs := by
  cases h with
  | emitted a => exact ⟨[(s.value a).setWidth 8], le_refl 1, rfl⟩
  | _ => exact ⟨[], Nat.zero_le 1, by simp⟩

theorem Effect.input_consumes {s t : State} {i : Instr} (h : Effect s i t) :
    ∃ bs : List Byte, bs.length ≤ 1 ∧ s.input = bs ++ t.input := by
  cases h with
  | taken _ _ b _ hin => exact ⟨[b], le_refl 1, by simp [hin]⟩
  | _ => exact ⟨[], Nat.zero_le 1, by simp⟩

/-- Settles O55: a step that executes nothing leaves both streams, and an effect moves at most one byte of each. -/
theorem stepsKeepConstantsAndStreamOrder : Obligations.StepsKeepConstantsAndStreamOrder := by
  intro s t hstep
  have hstill : (∃ bs : List Byte, bs.length ≤ 1 ∧ s.output = s.output ++ bs) ∧
      ∃ bs : List Byte, bs.length ≤ 1 ∧ s.input = bs ++ s.input :=
    ⟨⟨[], Nat.zero_le 1, (List.append_nil _).symm⟩, ⟨[], Nat.zero_le 1, rfl⟩⟩
  rcases step_cases hstep with ⟨rfl, -⟩ | ⟨-, -, rfl⟩ | ⟨-, -, rfl⟩ | ⟨-, i, -, hexec⟩
  · exact ⟨rfl, rfl, rfl, hstill⟩
  · exact ⟨rfl, rfl, rfl, hstill⟩
  · exact ⟨rfl, rfl, rfl, hstill⟩
  · have heff := exec_effect hexec
    obtain ⟨hsize, hcfg, hreset⟩ := heff.constants
    exact ⟨hsize, hcfg, hreset, heff.output_appends, heff.input_consumes⟩

/-! ### Steps that execute nothing -/

theorem step_of_not_running {s : State} (h : s.run ≠ .running) : step s = .next s := by
  unfold step
  split
  · rfl
  · rfl
  · rfl
  · exact absurd ‹_› h

/-- Settles O16: each stopped machine repeats its state, and the moves before the release write no run state. -/
theorem stoppedMachineTakesNoStep : Obligations.StoppedMachineTakesNoStep := by
  intro s
  refine ⟨fun reason h => step_of_not_running (by simp [h]), fun kind h => step_of_not_running (by simp [h]),
    fun image h => step_of_reset h, step_of_reset rfl, fun m hm => ?moves⟩
  case moves =>
    rcases m.apply_cases s with ⟨line, h⟩ | ⟨ws, h, -⟩ | ⟨b, h⟩
    · rw [h]
    · exact absurd h hm
    · rw [h]

/-! ### Runs of steps -/

theorem notFaulted_eq_false_iff {s : State} : s.notFaulted = false ↔ ∃ kind, s.run = .faulted kind := by
  unfold State.notFaulted
  cases s.run <;> simp

/-- Every step answers a next state (logs 4, 5, 6). -/
theorem step_next_exists (s : State) : ∃ t, step s = .next t := by
  unfold step
  split
  · exact ⟨_, rfl⟩
  · exact ⟨_, rfl⟩
  · exact ⟨_, rfl⟩
  · split
    · exact ⟨_, rfl⟩
    · split
      · exact ⟨_, rfl⟩
      · exact exec_next_exists _ s

/-- FAULTED is terminal: a state whose next state is not FAULTED is not FAULTED itself (R52). -/
theorem notFaulted_of_step {s t : State} (h : step s = .next t) (ht : t.notFaulted = true) : s.notFaulted = true := by
  by_contra hs
  obtain ⟨kind, hkind⟩ := notFaulted_eq_false_iff.mp (Bool.not_eq_true _ ▸ hs)
  obtain rfl : s = t := Host.Outcome.next.inj ((step_of_not_running (by simp [hkind])).symm.trans h)
  exact hs ht

theorem safeRun_zero_iff {s : State} : SafeRun 0 s ↔ s.notFaulted = true := by
  constructor
  · intro h
    obtain ⟨t, ht, hsafe⟩ := h 0 (le_refl 0)
    cases ht
    exact hsafe
  · intro h n hn
    obtain rfl := Nat.le_zero.mp hn
    exact ⟨s, rfl, h⟩

/-- A run of k + 1 steps is safe when its first state is and the k steps after it are. -/
theorem safeRun_succ_iff {s t : State} {k : Nat} (hstep : step s = .next t) :
    SafeRun (k + 1) s ↔ s.notFaulted = true ∧ SafeRun k t := by
  constructor
  · intro h
    refine ⟨safeRun_zero_iff.mp fun n hn => h n (by omega), fun n hn => ?_⟩
    rw [← run_succ n hstep]
    exact h (n + 1) (by omega)
  · rintro ⟨hs, ht⟩ n hn
    cases n with
    | zero => exact ⟨s, rfl, hs⟩
    | succ n =>
      rw [run_succ n hstep]
      exact ht n (by omega)

theorem SafeRun.notFaulted {s : State} {k : Nat} (h : SafeRun k s) : s.notFaulted = true :=
  safeRun_zero_iff.mp fun n hn => h n (by omega)

/-- Settles O19: by induction on the number of steps; a fault taken on the way stays to the last state. -/
theorem runsAnswerAndFaultsPersist : Obligations.RunsAnswerAndFaultsPersist := by
  intro k
  induction k with
  | zero => exact fun s => ⟨s, rfl, safeRun_zero_iff.symm⟩
  | succ k ih =>
    intro s
    obtain ⟨s', hstep⟩ := step_next_exists s
    obtain ⟨t, hrun, hiff⟩ := ih s'
    refine ⟨t, (run_succ k hstep).trans hrun, hiff.trans ?_⟩
    rw [safeRun_succ_iff hstep]
    exact ⟨fun h => ⟨notFaulted_of_step hstep h.notFaulted, h⟩, And.right⟩

end Sys2Proof.Machine
end

section
/-! PROOFS. The fetch of written words (R8, R86, R122, R254), programs of calls and of stack instructions (R44, R45,
R200, R201), and the host's reset and ports (R64, R65, R251). -/

namespace Sys2Proof.Machine

/-! ### Operand cells and decoded steps -/

theorem value_ofWord (s : State) (w : Word) : s.value (Operand.ofWord w) = s.resolve w := by
  rw [State.value, Operand.word_ofWord]

/-- Settles O8: the class of a word holds the word, for `MemRead` to resolve and for a destination as it stands. -/
theorem fetchedOperandsAreValueAndDest : Obligations.FetchedOperandsAreValueAndDest :=
  fun s _ w hraw => ⟨(memRead_of_rawRead hraw).trans (congrArg Except.ok (value_ofWord s w).symm),
    congrArg BitVec.toNat (Operand.word_ofWord w)⟩

/-- Settles O13: the fetch reads the words the decoder is given. -/
theorem stepRunsDecodedInstruction : Obligations.StepRunsDecodedInstruction :=
  fun _ _ _ _ _ => step_of_decode

/-! ### A stored opcode -/

/-- Below P, and below the window, an address reads and writes its program word under both settings. -/
theorem readSlot_program {s : State} {A : Nat} (hA : A < s.mem.size) (hlow : A < 32768) :
    s.readSlot A = some (.program A) :=
  (readSlot_raw (Or.inr (Or.inl hlow))).trans (rawSlot_program hA)

theorem writeSlot_program {s : State} {A : Nat} (hA : A < s.mem.size) (hlow : A < 32768) :
    s.writeSlot A = some (.program A) :=
  (writeSlot_raw s (Or.inl hlow)).trans (rawSlot_program hA)

/-- Settles O18: the store's address is the next pc, which reads back the word stored. -/
theorem storedOpcodeIsFetchedNext : Obligations.StoredOpcodeIsFetchedNext := by
  intro s a b hs hwf hfetch haddr hnext
  have hsize : s.mem.size ≤ 32768 := ((Memory.wf_iff s.mem).mp hwf).1
  have hwrite : s.writeSlot (s.value a).toNat = some (.program (s.pc.toNat + 3)) :=
    (congrArg s.writeSlot haddr).trans (writeSlot_program hnext (by omega))
  have hstep : step s = .next ((s.setSlot (.program (s.pc.toNat + 3)) (s.value b)).advance 3) := by
    rw [step_of_fetch hs hfetch, exec_wmem, store_of_slot hwrite, commit_ok]
  have hpc : (s.pc + 3).toNat = s.pc.toNat + 3 := Word.toNat_add_ofNat (n := 3) (by omega)
  have hraw : (s.setSlot (.program (s.pc.toNat + 3)) (s.value b)).rawRead (s.pc + 3).toNat = .ok (s.value b) :=
    hpc ▸ rawRead_setSlot_self hwf (readSlot_program hnext (by omega)) (s.value b)
  exact ⟨_, hstep, hpc, hraw, memRead_of_rawRead hraw⟩

/-! ### Calls and returns -/

/-- Settles O42: CALL leaves the return address on top of the stack, and RET takes it from there. -/
theorem callThenReturnRestores : Obligations.CallThenReturnRestores := by
  intro a s hroom
  exact ⟨_, exec_call_of_room (stackFull_eq_false_iff.mpr hroom) a, fun p => exec_ret_of_cons rfl⟩

/-! ### The stack, last in first out -/

theorem execAll_cons {i : Instr} {s t : State} (h : exec i s = .next t) (is : List Instr) :
    execAll (i :: is) s = execAll is t := by
  simp [execAll, h]

theorem exec_push_of_room {s : State} (h : s.stackFull = false) (a : Operand) :
    exec (.push a) s = .next { s with stack := s.value a :: s.stack, pc := s.pc + 2 } := by
  rw [exec_push, push_of_room h]
  rfl

/-- On an unbounded stack a list of literals is pushed whole, the last of them on top (R44). -/
theorem execAll_push_literals : ∀ (vs : List (BitVec 15)) (s : State), s.cfg.stackCapacity = none →
    ∃ t, execAll (vs.map fun v => .push (.literal v)) s = .next t ∧
      t.stack = (vs.map fun v => v.setWidth 16).reverse ++ s.stack
  | [], s, _ => ⟨s, rfl, rfl⟩
  | v :: vs, s, hcap => by
    have hroom : s.stackFull = false := stackFull_eq_false_iff.mpr (by simp [hcap])
    have hvalue : s.value (.literal v) = v.setWidth 16 := (value_literal s v).trans (BitVec.ofNat_toNat 16 v)
    obtain ⟨s', hexec, hcap', hs'⟩ : ∃ s', exec (.push (.literal v)) s = .next s' ∧ s'.cfg.stackCapacity = none ∧
        s'.stack = v.setWidth 16 :: s.stack := ⟨_, exec_push_of_room hroom _, hcap, by rw [hvalue]⟩
    obtain ⟨t, hrun, ht⟩ := execAll_push_literals vs s' hcap'
    exact ⟨t, (execAll_cons hexec _).trans hrun, by simp [ht, hs']⟩

/-- Popping as many words as stand above `base` leaves `base`, and in the register the word popped last (R45). -/
theorem execAll_pop_register (r : Fin 8) (base : List Word) : ∀ (ws : List Word) (s : State), s.stack = ws ++ base →
    ∃ u, execAll (List.replicate ws.length (.pop (.reg r))) s = .next u ∧
      u.stack = base ∧ u.reg r = ws.getLastD (s.reg r)
  | [], s, hs => ⟨s, rfl, hs, rfl⟩
  | w :: ws, s, hs => by
    have hpop := exec_pop_of_cons hs (.reg r)
    rw [store_of_slot (writeSlot_reg _ r), commit_ok] at hpop
    obtain ⟨s', hexec, hs', hreg'⟩ : ∃ s', exec (.pop (.reg r)) s = .next s' ∧ s'.stack = ws ++ base ∧ s'.reg r = w :=
      ⟨_, hpop, rfl, by simp [State.reg, State.setSlot]⟩
    obtain ⟨u, hrun, hu, hreg⟩ := execAll_pop_register r base ws s' hs'
    exact ⟨u, (execAll_cons hexec _).trans hrun, hu, by rw [hreg, hreg', List.getLastD_cons]⟩

/-- Settles O43: the pushes reverse the list onto the stack, so the pops end with its first value. -/
theorem stackIsLastInFirstOut : Obligations.StackIsLastInFirstOut := by
  intro vs r s hcap
  obtain ⟨t, hpush, ht⟩ := execAll_push_literals vs s hcap
  obtain ⟨u, hpop, hu, hreg⟩ := execAll_pop_register r s.stack _ t ht
  rw [List.length_reverse, List.length_map] at hpop
  refine ⟨t, u, hpush, ht, hpop, hu, fun v rest hvs => ?last, fun hempty => ?empty⟩
  case last => simp [hreg, hvs]
  case empty => exact exec_pop_of_empty (hu.trans hempty) _

/-! ### Reset -/

/-- A load of more than 32768 words is refused (R60, D1). -/
theorem State.construct_of_too_large {ws : List Word} (h : ¬ ws.length ≤ 32768) (cfg : Config) (offered : List Byte) :
    State.construct cfg ws offered =
      { State.reset with cfg := cfg, input := offered, run := .faulted .imageTooLarge } :=
  if_neg h

theorem State.reset_reg (r : Fin 8) : State.reset.reg r = 0 := by
  simp [State.reg, State.reset]

/-- The reset values that an accepted and a refused load share (R251). -/
theorem State.construct_reset_values (cfg : Config) (ws : List Word) (offered : List Byte) :
    (State.construct cfg ws offered).regs = State.reset.regs ∧ (State.construct cfg ws offered).pc = 0 ∧
    (State.construct cfg ws offered).stack = [] ∧ (State.construct cfg ws offered).output = [] ∧
    (State.construct cfg ws offered).waiting = false ∧ (State.construct cfg ws offered).input = offered ∧
    (State.construct cfg ws offered).cfg = cfg ∧ (State.construct cfg ws offered).resetLine = .released := by
  by_cases h : ws.length ≤ 32768
  · simp [State.construct_of_fits h, State.reset]
  · simp [State.construct_of_too_large h, State.reset]

/-- After an accepted load address k reads the k-th word (R38, R60). -/
theorem rawRead_construct {ws : List Word} (h : ws.length ≤ 32768) (cfg : Config) (offered : List Byte) {k : Nat}
    (hk : k < ws.length) : (State.construct cfg ws offered).rawRead k = .ok ws[k] := by
  have hmem : (State.construct cfg ws offered).mem = Memory.ofWords ws := by rw [State.construct_of_fits h]
  have hsize : k < (State.construct cfg ws offered).mem.size := by rw [hmem]; exact hk
  rw [rawRead_of_slot (readSlot_program hsize (by omega)), State.getSlot, hmem, Memory.ofWords_read,
    List.getElem_eq_getD unlistedWord]

/-- Settles O57: the three moves give the state at the release of reset, whatever the state before. -/
theorem resetSetsEveryResetValue : Obligations.ResetSetsEveryResetValue := by
  intro s t ws ht
  obtain rfl : t = State.construct s.cfg ws s.input := ht
  obtain ⟨hregs, hrest⟩ := State.construct_reset_values s.cfg ws s.input
  obtain ⟨hpc, hstack, houtput, hwaiting, hinput, hcfg, hline⟩ := hrest
  refine ⟨fun r => (reg_congr hregs r).trans (State.reset_reg r), hpc, hstack, houtput, hwaiting, hinput, hcfg, hline,
    fun hfits => ?accepted, fun hlarge => ?refused⟩
  case accepted =>
    have hstate := State.construct_of_fits hfits s.cfg s.input
    exact ⟨by rw [hstate]; rfl, State.statusWord_construct hfits _ _, by rw [hstate]; rfl,
      fun k hk => rawRead_construct hfits _ _ hk⟩
  case refused => rw [State.construct_of_too_large (by omega)]

/-! ### The host's ports -/

/-- Settles O58: the debug port is the register file, and only a release after a load builds a new state. -/
theorem hostWritesOnlyByReset : Obligations.HostWritesOnlyByReset := by
  intro m s
  refine ⟨fun r => rfl, fun hnot => ?_⟩
  rcases m.apply_cases s with ⟨line, h⟩ | ⟨ws, hm, hline, -⟩ | ⟨b, h⟩
  · simp [h]
  · rcases hnot with hloaded | hrelease
    · exact absurd hline (hloaded ws)
    · exact absurd hm hrelease
  · simp [h]

end Sys2Proof.Machine
end
